-- ==== Sys2Proof/Word.lean ====
section
/-! DEFINITION. The two word types of the block: a 32-bit register value and an 8-bit sample (R8 (c), R9). -/

namespace Sys2Proof

/-- A register value or a command word: 32 bits, unsigned (R22, R80). -/
abbrev Word := BitVec 32

/-- One sample (channel value, luminance or LBP code) and one memory cell: 8 bits, unsigned (R8 (c), R50). -/
abbrev Byte := BitVec 8

end Sys2Proof
end

