-- ==== Sys2Proof/Syntax.lean ====
section
/-! DEFINITION. The four commands (R80), and the vocabulary of the host: memories, registers, the five host actions (R21),
the order in which the two agents move, what a read gives back, and the Message record (R170). -/

namespace Sys2Proof

/-- The block's instructions: the four commands of `spec/opcode_table.json` (R80). A command has no operand fields (R81). -/
inductive Instr where
  /-- CLR, OP = 0: return to IDLE (R153). -/
  | clr
  /-- GRAY, OP = 1: PIX to GRAY (R117). -/
  | gray
  /-- LBP, OP = 2: GRAY to LBPM (R141). -/
  | lbp
  /-- PROC, OP = 3: PIX to GRAY, then to LBPM (R152). -/
  | proc
deriving DecidableEq, Repr

/-- The three byte memories (R36, R50). -/
inductive Space where
  | pix
  | gray
  | lbpm
deriving DecidableEq, Repr

/-- The six registers of the register block (R22). -/
inductive Reg where
  | ctrl
  | status
  | width
  | height
  | len
  | outlen
deriving DecidableEq, Repr

/-- The host's actions, "these five and no others" (R21). A register is named by its byte offset and a memory cell by its
space and index, as the host gives them; no action has another width (R57). -/
inductive HostAction where
  | regWrite (off : Nat) (v : Word)
  | regRead (off : Nat)
  | memWrite8 (sp : Space) (idx : Nat) (b : Byte)
  | memRead8 (sp : Space) (idx : Nat)
  | reset
deriving DecidableEq, Repr

/-- One entry of the order in which the two agents of R20 move: an action of the host, or the engine's turn. How many
STATUS reads come before the engine's turn is free (R154, 93 U8), so it is data of the environment. -/
inductive Event where
  | host (a : HostAction)
  | engine
deriving DecidableEq, Repr

/-- What a read returns to the host (R21 (b), (d)). -/
inductive Reply where
  | word (v : Word)
  | byte (b : Byte)
deriving DecidableEq, Repr

/-- The three named error kinds (R175, R193). -/
inductive ErrorKind where
  /-- Raised by the host's codec only, never by the block (R194). -/
  | schemaDecode
  /-- Raised by the frame checker (R191). -/
  | dimensionMismatch
  /-- Raised by the frame checker (R192). -/
  | invalidDimensions
deriving DecidableEq, Repr

/-- The Message record `{width: u32, height: u32, buf: byte sequence}`, used for request and response alike (R170). -/
structure Message where
  width : Word
  height : Word
  buf : List Byte
deriving DecidableEq, Repr

end Sys2Proof
end

