-- ==== Sys2Proof/Config.lean ====
section
/-! DEFINITION. The implementation parameters LUMA and MAXPIX (R6, R7), each with the constraint the spec makes on it, and
the values the spec leaves free: what an unwritten cell reads as (R221, U2), whether an action that is being held survives a
Reset (R220, U7), and what RefCodec encodes an oversized Message as (R174). -/

namespace Sys2Proof

/-- The rounding of the luma division (R6, R112). -/
inductive Rounding where
  | floor
  | nearest
deriving DecidableEq, Repr

/-- Parameter `LUMA = (WR, WG, WB, DIV, RND)` of R6. The two constraints that R6 demands of every value are carried by
the type, so an inadmissible weighting cannot be written down. -/
structure Luma where
  wr : Nat
  wg : Nat
  wb : Nat
  div : Nat
  rnd : Rounding
  div_pos : 1 ≤ div
  sum_eq : wr + wg + wb = div
deriving DecidableEq, Repr

/-- The parameters of one block: the luma weighting (R6) and the capacity `MAXPIX` in pixels (R7) with its bounds. -/
structure Params where
  luma : Luma
  maxPix : Nat
  maxPix_pos : 1 ≤ maxPix
  maxPix_le : maxPix ≤ 2 ^ 30 - 1
deriving DecidableEq, Repr

/-- FREE VALUE (log 3): what a cell reads as while it has not been written since the last Reset, for the count of Resets
so far, the memory and the index (R221; 93 U2 "any value"). It has no body: nothing can be proved of it. -/
opaque Config.unwrittenByte (resets : Nat) (sp : Space) (idx : Nat) : Byte

/-- FREE VALUE (log 18): the bytes that `RefCodec.encode` gives for a Message whose buffer has 2^32 bytes or more. R174 defines
the encoder "when len(buf) < 2^32" and states no result there. It has no body. -/
opaque Config.refEncodeOversized (m : Message) : List Byte

/-- FREE VALUE (log 4): whether the host action that is being held when the Reset of this number happens is performed on
the reset state (`true`) or dropped (`false`) (R220; 93 U7 "any value of the two"). It has no body. -/
opaque Config.heldSurvivesReset (resets : Nat) : Bool

end Sys2Proof
end

