-- ==== Sys2Proof/Machine/GrayUnit.lean ====
section
/-! DEFINITION. Unit GC, the grayscale converter: `luma` and `gray_fn` (R110 to R116). -/

namespace Sys2Proof.Machine

/-- The luma accumulator, a natural number that never wraps (R112, R11). -/
def lumaAcc (L : Luma) (r g b : Byte) : Nat :=
  L.wr * r.toNat + L.wg * g.toNat + L.wb * b.toNat

/-- The quotient of R112, before it is put into a byte; it is at most 255 (R114 (a)). -/
def lumaNat (L : Luma) (r g b : Byte) : Nat :=
  match L.rnd with
  | .floor => lumaAcc L r g b / L.div
  | .nearest => (lumaAcc L r g b + L.div / 2) / L.div

/-- `luma : u8 x u8 x u8 -> u8` (R112). -/
def luma (L : Luma) (r g b : Byte) : Byte :=
  BitVec.ofNat 8 (lumaNat L r g b)

/-- The luminance of pixel `p` of a PixelBuffer, which occupies bytes `4p` (red) to `4p + 3` (alpha); alpha is not an
input (R51, R111). -/
def pixelLuma (L : Luma) (pix : Nat → Byte) (p : Nat) : Byte :=
  luma L (pix (4 * p)) (pix (4 * p + 1)) (pix (4 * p + 2))

/-- `gray_fn(W, H, pix)`: one luminance for each pixel number below `W * H` (R115). The source buffer is given as its byte
at each index; only indices below `4 * W * H` are looked at. -/
def grayFn (L : Luma) (w h : Nat) (pix : Nat → Byte) : List Byte :=
  (List.range (w * h)).map (pixelLuma L pix)

end Sys2Proof.Machine
end

