-- ==== Sys2Proof/Machine/LbpUnit.lean ====
section
/-! DEFINITION. Unit LNC, the LBP neighbourhood comparator: the code of one cell and `lbp_fn` (R130 to R139). -/

namespace Sys2Proof.Machine

/-- One term of the code: the weight when the neighbour is at least the centre (unsigned, not strict), else 0 (R134). -/
def lbpTerm (n c weight : Byte) : Byte :=
  if c ≤ n then weight else 0

/-- The code of one interior cell from its centre and its eight neighbours, clockwise from the top left (R135). -/
def lbpCode (c n0 n1 n2 n3 n4 n5 n6 n7 : Byte) : Byte :=
  lbpTerm n0 c 0x80 + lbpTerm n1 c 0x40 + lbpTerm n2 c 0x20 + lbpTerm n3 c 0x10
    + lbpTerm n4 c 0x08 + lbpTerm n5 c 0x04 + lbpTerm n6 c 0x02 + lbpTerm n7 c 0x01

/-- Interior: `x >= 1 and x + 2 <= W and y >= 1 and y + 2 <= H`, the form without wrap-around (R132). -/
abbrev isInterior (w h x y : Nat) : Prop :=
  1 ≤ x ∧ x + 2 ≤ w ∧ 1 ≤ y ∧ y + 2 ≤ h

/-- The output byte at column `x`, row `y`: the code of an interior cell, 0 for a border cell (R136, R137). The cell is
index `y * W + x` of the gray buffer (R131). -/
def lbpCell (w h : Nat) (gray : Nat → Byte) (x y : Nat) : Byte :=
  if isInterior w h x y then
    lbpCode (gray (y * w + x))
      (gray ((y - 1) * w + (x - 1))) (gray ((y - 1) * w + x)) (gray ((y - 1) * w + (x + 1)))
      (gray (y * w + (x + 1)))
      (gray ((y + 1) * w + (x + 1))) (gray ((y + 1) * w + x)) (gray ((y + 1) * w + (x - 1)))
      (gray (y * w + (x - 1)))
  else 0

/-- `lbp_fn(W, H, gray)`: one byte for each cell, index `p` being column `p mod W` of row `p / W` (R131, R137). The source
buffer is given as its byte at each index; only indices below `W * H` are looked at. -/
def lbpFn (w h : Nat) (gray : Nat → Byte) : List Byte :=
  (List.range (w * h)).map fun p => lbpCell w h gray (p % w) (p / w)

end Sys2Proof.Machine
end

