-- ==== Sys2Proof/Decode.lean ====
section
/-! DEFINITION. The command word (R80 to R83): the opcode map, the decoder and the encoder. -/

namespace Sys2Proof

/-- The opcode of a command, `v[1:0]` (the opcode map of R80). -/
def Instr.op : Instr → BitVec 2
  | .clr => 0
  | .gray => 1
  | .lbp => 2
  | .proc => 3

/-- The command an opcode names; the map is complete (R80, R82). -/
def Instr.ofOp (op : BitVec 2) : Instr :=
  if op = 0 then .clr else if op = 1 then .gray else if op = 2 then .lbp else .proc

/-- Decode a command word by its low two bits; bits 31:2 are ignored, so every word is legal (R80, R82). -/
def decode (v : Word) : Instr :=
  Instr.ofOp (v.extractLsb' 0 2)

/-- The word of a command, with 0 in the reserved bits, "the host should write 0" (R80). -/
def encode (i : Instr) : Word :=
  (0 : BitVec 30) ++ i.op

/-- Why a bit string is no command: its length. Nothing else can be wrong with it (R82, R83). -/
inductive DecodeError where
  /-- "All commands have the same length, 32 bits" (R83). -/
  | notOneWord
deriving DecidableEq, Repr

/-- Decode a string of `nbits` bits, given as a number: a string of 32 bits is a command, one of any other length, shorter or
longer, is none (R80 "one length and one format", R83 "no compressed forms, no prefixes ... no multi-word command"). -/
def decodeBits (nbits w : Nat) : Except DecodeError Instr :=
  if nbits = 32 then .ok (decode (BitVec.ofNat 32 w)) else .error .notOneWord

/-- The decoder as the host asks for it: the command that the bits of an opcode-table row give. -/
def decodeTableWord (nbits w : Nat) : Option Instr :=
  (decodeBits nbits w).toOption

/-- One row of R80's match-and-mask table. -/
structure OpcodeRow where
  mask : Word
  value : Word
  instr : Instr
deriving DecidableEq, Repr

/-- "mask 0x00000003 for all four; match 0x00000000 CLR, 0x00000001 GRAY, 0x00000002 LBP, 0x00000003 PROC" (R80). -/
def opcodeTable : List OpcodeRow :=
  [⟨0x00000003, 0x00000000, .clr⟩, ⟨0x00000003, 0x00000001, .gray⟩, ⟨0x00000003, 0x00000002, .lbp⟩,
   ⟨0x00000003, 0x00000003, .proc⟩]

end Sys2Proof
end

