-- ==== Sys2Proof/Machine/Defaults.lean ====
section
/-! DEFINITION. The parameter values the spec names: LUMA_DEFAULT, LUMA_BT601 (R113) and the largest MAXPIX (R7). -/

namespace Sys2Proof.Machine

/-- `LUMA_DEFAULT = (2126, 7152, 722, 10000, FLOOR)` (R6, R113). -/
def lumaDefault : Luma :=
  { wr := 2126, wg := 7152, wb := 722, div := 10000, rnd := .floor, div_pos := by decide, sum_eq := by decide }

/-- `LUMA_BT601 = (77, 150, 29, 256, FLOOR)`, the named alternative, for vectors only (R113). -/
def lumaBt601 : Luma :=
  { wr := 77, wg := 150, wb := 29, div := 256, rnd := .floor, div_pos := by decide, sum_eq := by decide }

/-- The parameters `State.reset` takes (log 2): LUMA_DEFAULT, and "a model that wants no capacity limit takes
`MAXPIX = 2^30 - 1`" (R7). No statement rests on either value. -/
def paramsDefault : Params :=
  { luma := lumaDefault, maxPix := 1073741823, maxPix_pos := by decide, maxPix_le := by decide }

end Sys2Proof.Machine
end

