-- ==== Sys2Proof/Machine/State.lean ====
section
/-! DEFINITION. The state of the block as plain data, the reasons a step can stop, and the state after Reset. -/

namespace Sys2Proof.Machine

/-- A memory: the cells written since the last Reset, as (index, byte) pairs with strictly rising indices. An index that
is not listed is "unwritten" (R221). -/
abbrev Memory := List Host.Cell

/-- STATUS.STATE, bits 1:0 of STATUS (R26, R27). -/
inductive RunState where
  | idle
  | busy
  | done
  | error
deriving DecidableEq, Repr

/-- What the STATUS register holds: its three fields. The reserved bits read as 0 and are stored nowhere (R26). -/
structure Status where
  /-- STATE, bits 1:0 (R27). -/
  state : RunState
  /-- ERR, bits 7:4 (R28). -/
  err : BitVec 4
  /-- OP, bits 9:8 (R29). -/
  op : BitVec 2
deriving DecidableEq, Repr

/-- The machine. The first eight fields are the complete state of the block: "the five state-holding registers of rule
R22 and the three memories of rule R36" (R37); CTRL stores nothing (R25). The last five are the model's own: the
parameters of R6 and R7, the host's side of the interface (what it will do, what is held, what it has read), and the
count of Resets that the free values are indexed by. -/
structure State where
  /-- STATUS, offset 0x04 (R26). -/
  status : Status
  /-- WIDTH, offset 0x08 (R30). -/
  width : Word
  /-- HEIGHT, offset 0x0C (R31). -/
  height : Word
  /-- LEN, offset 0x10 (R32). -/
  len : Word
  /-- OUTLEN, offset 0x14 (R33). -/
  outlen : Word
  /-- PIX, `4 * MAXPIX` bytes (R36, R50). -/
  pix : Memory
  /-- GRAY, `MAXPIX` bytes (R36, R50). -/
  gray : Memory
  /-- LBPM, `MAXPIX` bytes (R36, R50). -/
  lbpm : Memory
  /-- The parameters LUMA and MAXPIX (R6, R7). No step writes them (log 2). -/
  params : Params
  /-- The moves still to come, oldest first: the host's actions in the order it issues them (R61), and the points at
  which the engine takes its turn (log 5). -/
  inbox : List Event
  /-- The host action that has been issued and is being held (R154). The host has one action under way at a time (log 6). -/
  held : Option HostAction
  /-- What the host's reads have returned, oldest first (R21). -/
  replies : List Reply
  /-- How many Resets have happened: the index of the free values (logs 3 and 4). -/
  resets : Nat
deriving DecidableEq, Repr

/-- Why the machine is stuck. -/
inductive Fault where
  /-- Raised by `engineTurn` where STATE = BUSY and OP = 0: no command is named, and R151 gives the engine no step. No
  run reaches it (`State.Inv` rules it out). Safe: the model stops. -/
  | busyWithoutCommand
deriving DecidableEq, Repr

/-- Why the model has no transition. The spec itself says of each of the last three that a model refuses it (93 U1, U4, U5). -/
inductive Refusal where
  /-- A command that has no meaning yet. Raised by no arm of `exec`. Safe. -/
  | notModelled (mnemonic : String)
  /-- Raised by GRAY, LBP and PROC when LEN is above the capacity of the source memory (R32, R202, 93 U1). Safe. -/
  | lenAboveCapacity
  /-- Raised by a register access at an offset that is not in the map (R22, R57, 93 U4). Safe. -/
  | noSuchRegister
  /-- Raised by a memory access at an index outside its space (R50, 93 U5). Safe. -/
  | noSuchCell
deriving DecidableEq, Repr

/-- What one step answers. -/
abbrev Outcome := Host.Outcome State Fault Refusal

/-- The state right after Reset (R39): STATUS = 0, WIDTH = HEIGHT = LEN = OUTLEN = 0, every cell unwritten. -/
def State.reset : State :=
  { status := { state := .idle, err := 0, op := 0 }
    width := 0
    height := 0
    len := 0
    outlen := 0
    pix := []
    gray := []
    lbpm := []
    params := paramsDefault
    inbox := []
    held := none
    replies := []
    resets := 0 }

end Sys2Proof.Machine
end

