-- ==== Sys2Proof/Machine/Flags.lean ====
section
/-! DEFINITION. The block's only flags (R34): the fields of STATUS, their codes and the STATUS word (R26 to R29, R193). -/

namespace Sys2Proof.Machine

/-- The code of STATUS.STATE: 0 IDLE, 1 BUSY, 2 DONE, 3 ERROR (R26). -/
def RunState.code : RunState → BitVec 2
  | .idle => 0
  | .busy => 1
  | .done => 2
  | .error => 3

/-- The code of an error kind: 1 SCHEMA_DECODE, 2 DIMENSION_MISMATCH, 3 INVALID_DIMENSIONS (R193). -/
def errorCode : ErrorKind → BitVec 4
  | .schemaDecode => 1
  | .dimensionMismatch => 2
  | .invalidDimensions => 3

/-- The STATUS word: STATE in bits 1:0, ERR in 7:4, OP in 9:8, bits 3:2 and 31:10 read as 0 (R26). -/
def Status.word (st : Status) : Word :=
  (0 : BitVec 22) ++ st.op ++ st.err ++ (0 : BitVec 2) ++ st.state.code

/-- STATE as the host picks it out of a STATUS word. -/
def wordState (v : Word) : BitVec 2 := v.extractLsb' 0 2

/-- ERR as the host picks it out of a STATUS word. -/
def wordErr (v : Word) : BitVec 4 := v.extractLsb' 4 4

/-- STATUS at the issue of a command: OP named, ERR cleared, STATE = BUSY (R150). -/
def statusIssued (i : Instr) : Status := { state := .busy, err := 0, op := i.op }

/-- STATUS after CLR: all fields 0 (R153). -/
def statusCleared : Status := { state := .idle, err := 0, op := 0 }

/-- STATUS after a command that succeeded: ERR = 0, STATE = DONE, OP kept (R151). -/
def Status.succeeded (st : Status) : Status := { st with state := .done, err := 0 }

/-- STATUS after a command that failed: ERR = the code, STATE = ERROR, OP kept (R196). -/
def Status.failed (st : Status) (e : ErrorKind) : Status := { st with state := .error, err := errorCode e }

end Sys2Proof.Machine
end

