-- ==== Sys2Proof/Machine/Operands.lean ====
section
/-! DEFINITION. The implicit operands of the commands (R81), the capacities of the memories (R7, R50) and the register
map (R22). -/

namespace Sys2Proof.Machine

/-- What a frame command works on: its source memory, the arity of the source buffer and the memory that holds its
result (R80 opcode map, R81). -/
structure FrameOperands where
  source : Space
  arity : Nat
  result : Space
deriving DecidableEq, Repr

/-- The operands of each command; CLR has none (R80, R81). PROC writes GRAY as well; its result is in LBPM (R29, R152). -/
def frameOperands : Instr → Option FrameOperands
  | .clr => none
  | .gray => some { source := .pix, arity := 4, result := .gray }
  | .lbp => some { source := .gray, arity := 1, result := .lbpm }
  | .proc => some { source := .pix, arity := 4, result := .lbpm }

/-- The memory that holds the result when STATE = DONE: GRAY for OP = 1, LBPM for OP = 2 or 3 (R29). -/
def resultSpace (op : BitVec 2) : Space := if op = 1 then .gray else .lbpm

/-- How many cells a memory has: `4 * MAXPIX` for PIX, `MAXPIX` for GRAY and LBPM (R7, R50). -/
def capacity (p : Params) : Space → Nat
  | .pix => 4 * p.maxPix
  | .gray => p.maxPix
  | .lbpm => p.maxPix

/-- The byte offset of a register (R22). -/
def regOffset : Reg → Nat
  | .ctrl => 0x00
  | .status => 0x04
  | .width => 0x08
  | .height => 0x0C
  | .len => 0x10
  | .outlen => 0x14

/-- The register at a byte offset; none outside the map (R22, 93 U4). -/
def regAt (off : Nat) : Option Reg :=
  if off = 0x00 then some .ctrl
  else if off = 0x04 then some .status
  else if off = 0x08 then some .width
  else if off = 0x0C then some .height
  else if off = 0x10 then some .len
  else if off = 0x14 then some .outlen
  else none

/-- Whether an action is held while the block is BUSY: every one "except `RegRead(0x04)` and `Reset`" (R154). -/
def waitsWhileBusy : HostAction → Bool
  | .regRead off => off != 0x04
  | .reset => false
  | .regWrite _ _ => true
  | .memWrite8 _ _ _ => true
  | .memRead8 _ _ => true

/-- The CTRL write that issues a command (R88). -/
def ctrlWrite (i : Instr) : HostAction := .regWrite (regOffset .ctrl) (encode i)

end Sys2Proof.Machine
end

