-- ==== Sys2Proof/Machine/Ops.lean ====
section
/-! DEFINITION. The named operations over memories and registers, the frame check (R191, R192), and what a command does to
the state around its own computation: issue (R150), success (R151), error entry (R196), the hold (R154) and Reset (R220). -/

namespace Sys2Proof.Machine

/-! ### Memories -/

/-- The byte at an index, if the cell has been written (R221). -/
def Memory.read : Memory → Nat → Option Byte
  | [], _ => none
  | (j, c) :: m, i => if i = j then some c else Memory.read m i

/-- Write one byte, keeping the indices strictly rising (R57: an access moves one byte). -/
def Memory.write : Memory → Nat → Byte → Memory
  | [], i, b => [(i, b)]
  | (j, c) :: m, i, b =>
    if i < j then (i, b) :: (j, c) :: m
    else if i = j then (i, b) :: m
    else (j, c) :: Memory.write m i b

/-- Write a run of bytes from an index upwards. -/
def Memory.writeRun : Memory → Nat → List Byte → Memory
  | m, _, [] => m
  | m, i, b :: bs => Memory.writeRun (Memory.write m i b) (i + 1) bs

/-- The canonical form: indices strictly rising. An unlisted index reads as `none`, which no entry can equal, so equal
memories are equal lists (log 1). -/
abbrev Memory.wf (m : Memory) : Prop := m.Pairwise (fun a b => a.1 < b.1)

/-- Every written cell lies inside a memory of `n` cells (R50). -/
abbrev Memory.within (m : Memory) (n : Nat) : Prop := ∀ c ∈ m, c.1 < n

/-- One of the three memories. -/
def State.mem (s : State) : Space → Memory
  | .pix => s.pix
  | .gray => s.gray
  | .lbpm => s.lbpm

/-- Replace one of the three memories. -/
def State.setMem (s : State) (sp : Space) (m : Memory) : State :=
  match sp with
  | .pix => { s with pix := m }
  | .gray => { s with gray := m }
  | .lbpm => { s with lbpm := m }

/-- A cell: its byte if it has been written since the last Reset, else `none` (R221). -/
def State.cell (s : State) (sp : Space) (i : Nat) : Option Byte := Memory.read (s.mem sp) i

/-- `MemRead(space, idx, 1)`: a written cell gives its byte, an unwritten one a free value (R10, R221, 93 U2; log 3). -/
def State.byteAt (s : State) (sp : Space) (i : Nat) : Byte :=
  (s.cell sp i).getD (Config.unwrittenByte s.resets sp i)

/-- `MemWrite(space, idx, 1, b)` (R10). -/
def State.writeByte (s : State) (sp : Space) (i : Nat) (b : Byte) : State :=
  s.setMem sp (Memory.write (s.mem sp) i b)

/-- Write a buffer to a memory from index 0 (R81: "the result starts at index 0"). -/
def State.storeBuffer (s : State) (sp : Space) (bs : List Byte) : State :=
  s.setMem sp (Memory.writeRun (s.mem sp) 0 bs)

/-! ### Registers -/

/-- The value of a register; CTRL reads as 0 in every state (R22, R25). -/
def State.readReg (s : State) : Reg → Word
  | .ctrl => 0
  | .status => s.status.word
  | .width => s.width
  | .height => s.height
  | .len => s.len
  | .outlen => s.outlen

/-- A host write to a register other than CTRL: STATUS and OUTLEN ignore it (R22). A CTRL write issues a command and is
not an operation on a stored value (R25). -/
def State.writeReg (s : State) (r : Reg) (v : Word) : State :=
  match r with
  | .ctrl => s
  | .status => s
  | .width => { s with width := v }
  | .height => { s with height := v }
  | .len => { s with len := v }
  | .outlen => s

/-- Give the host the answer to a read; no read changes anything else (R58). -/
def State.reply (s : State) (r : Reply) : State := { s with replies := s.replies ++ [r] }

/-! ### The life of a command -/

/-- The frame check, in exact arithmetic (R191, R192): the length test first (R195). -/
def validate (arity w h n : Nat) : Option ErrorKind :=
  if n ≠ w * h * arity then some .dimensionMismatch
  else if w = 0 ∨ h = 0 then some .invalidDimensions
  else none

/-- Issue: "STATUS.OP <- v[1:0], STATUS.ERR <- 0, OUTLEN <- 0, STATUS.STATE <- BUSY" and nothing else (R150). -/
def State.issue (s : State) (i : Instr) : State := { s with status := statusIssued i, outlen := 0 }

/-- CLR's effect: every field of STATUS and OUTLEN become 0 (R153). -/
def State.clear (s : State) : State := { s with status := statusCleared, outlen := 0 }

/-- Success: "OUTLEN <- W * H, STATUS.ERR <- 0, STATUS.STATE <- DONE" (R151). -/
def State.succeed (s : State) : State :=
  { s with status := s.status.succeeded, outlen := BitVec.ofNat 32 (s.width.toNat * s.height.toNat) }

/-- Error entry, the meaning of `raise`: "OUTLEN <- 0, STATUS.ERR <- code, STATUS.STATE <- ERROR and nothing else" (R196).
There is no return: the next command leaves the state ERROR (R197), by `State.issue` or `State.clear`. -/
def State.raise (s : State) (e : ErrorKind) : State := { s with status := s.status.failed e, outlen := 0 }

/-- A completion step: the frame check, then the command's stores and the success record, or the error entry (R151). -/
def State.complete (s : State) (arity : Nat) (store : State → State) : State :=
  match validate arity s.width.toNat s.height.toNat s.len.toNat with
  | some e => s.raise e
  | none => (store s).succeed

/-- A host action is issued while the block is BUSY and waits (R154). The host waits with it, so a second one cannot come
before the first has taken effect. -/
def State.hold (s : State) (a : HostAction) : State := { s with held := s.held.or (some a) }

/-- A command that is not CLR, one atomic step at a time (R155). While another command is in progress its CTRL write is
held (R154). With LEN above the capacity of its source memory it has no defined behaviour, and the spec has a model refuse
it (R32, R202, 93 U1). Otherwise: while it is itself the command in progress, its completion (R151); else its issue (R150). -/
def frameCommand (i : Instr) (source : Space) (finish : State → State) (s : State) : Outcome :=
  if s.status.state = .busy ∧ s.status.op ≠ i.op then .next (s.hold (ctrlWrite i))
  else if capacity s.params source < s.len.toNat then .refused .lenAboveCapacity
  else if s.status.state = .busy then .next (finish s)
  else .next (s.issue i)

/-! ### Reset -/

/-- Reset: the registers take their reset values, a command in progress is abandoned, every cell becomes unwritten with a
new unspecified value, and an action that is being held is dropped or kept, which is free (R220, R221, 93 U7; log 4). What
is not the block's (the parameters, the host's coming moves, what it has read) stays. -/
def State.resetBlock (s : State) : State :=
  { State.reset with
    params := s.params
    inbox := s.inbox
    held := if Config.heldSurvivesReset s.resets then s.held else none
    replies := s.replies
    resets := s.resets + 1 }

end Sys2Proof.Machine
end

