-- ==== Sys2Proof/Machine/Commands.lean ====
section
/-! DEFINITION. The meanings of the four commands (R117, R141, R152, R153). `exec i s` is the next atomic step of command
`i` at `s`: the effect of its CTRL write while the block is not BUSY, and its completion step while it is the command in
progress; issue and completion are two steps (R155). -/

namespace Sys2Proof.Machine

/-- The luminances of the frame in PIX (R111, R115). -/
def State.frameGray (s : State) : List Byte :=
  grayFn s.params.luma s.width.toNat s.height.toNat (s.byteAt .pix)

/-- The stores of GRAY: `GRAY[p] <- luma(PIX[4p], PIX[4p+1], PIX[4p+2])` for every pixel (R117). -/
def storeGray (s : State) : State :=
  s.storeBuffer .gray s.frameGray

/-- The stores of LBP: `LBPM[p] <- lbp_fn(W, H, GRAY)[p]` for every cell, the border's zeros among them (R141, R136). -/
def storeLbp (s : State) : State :=
  s.storeBuffer .lbpm (lbpFn s.width.toNat s.height.toNat (s.byteAt .gray))

/-- The stores of PROC: the luminances to GRAY, then `lbp_fn` of those same luminances, "not old GRAY contents", to LBPM
(R152). No index at or above `W * H` is looked at, so the 0 past the end of the list is never seen. -/
def storeProc (s : State) : State :=
  (s.storeBuffer .gray s.frameGray).storeBuffer .lbpm
    (lbpFn s.width.toNat s.height.toNat fun i => s.frameGray.getD i 0)

/-- CLR: return to IDLE and drop the record of a result, in one step; held while BUSY like any other write (R153, R154). -/
def execClr (s : State) : Outcome :=
  if s.status.state = .busy then .next (s.hold (ctrlWrite .clr)) else .next s.clear

/-- GRAY: convert the PixelBuffer in PIX to a GrayBuffer in GRAY; arity 4 (R117). -/
def execGray (s : State) : Outcome :=
  frameCommand .gray .pix (fun s => s.complete 4 storeGray) s

/-- LBP: compute the LBPBuffer in LBPM from the GrayBuffer in GRAY; arity 1 (R141). -/
def execLbp (s : State) : Outcome :=
  frameCommand .lbp .gray (fun s => s.complete 1 storeLbp) s

/-- PROC: GRAY, then LBP on its result; the check is made once, with arity 4 (R152). -/
def execProc (s : State) : Outcome :=
  frameCommand .proc .pix (fun s => s.complete 4 storeProc) s

end Sys2Proof.Machine
end

