-- ==== Sys2Proof/Machine/Dispatch.lean ====
section
/-! DEFINITION. One arm per command. -/

namespace Sys2Proof.Machine

def exec (i : Instr) (s : State) : Host.Outcome State Fault Refusal :=
  match i with
  | .clr => Sys2Proof.Machine.execClr s
  | .gray => Sys2Proof.Machine.execGray s
  | .lbp => Sys2Proof.Machine.execLbp s
  | .proc => Sys2Proof.Machine.execProc s

end Sys2Proof.Machine
end

