-- ==== Sys2Proof/Machine/HostActions.lean ====
section
/-! DEFINITION. What the two agents do (R20, R21): the effect of each host action, and the engine's turn. -/

namespace Sys2Proof.Machine

/-- `RegWrite(off, v)`: a CTRL write issues the command word `v` (R25, R150); the other registers take or ignore the value
(R22); an offset outside the map is refused (93 U4). -/
def hostRegWrite (off : Nat) (v : Word) (s : State) : Outcome :=
  match regAt off with
  | none => .refused .noSuchRegister
  | some .ctrl => exec (decode v) s
  | some .status => .next (s.writeReg .status v)
  | some .width => .next (s.writeReg .width v)
  | some .height => .next (s.writeReg .height v)
  | some .len => .next (s.writeReg .len v)
  | some .outlen => .next (s.writeReg .outlen v)

/-- `RegRead(off)`: the value is returned and nothing else changes (R26, R58). -/
def hostRegRead (off : Nat) (s : State) : Outcome :=
  match regAt off with
  | none => .refused .noSuchRegister
  | some r => .next (s.reply (.word (s.readReg r)))

/-- `MemWrite8(space, idx, b)`: PIX and GRAY take the byte, a write to LBPM "completes and changes nothing" (R40); an index
outside the space is refused (93 U5). -/
def hostMemWrite (sp : Space) (idx : Nat) (b : Byte) (s : State) : Outcome :=
  if idx < capacity s.params sp then
    match sp with
    | .pix => .next (s.writeByte .pix idx b)
    | .gray => .next (s.writeByte .gray idx b)
    | .lbpm => .next s
  else .refused .noSuchCell

/-- `MemRead8(space, idx)`: the byte is returned and nothing else changes (R40, R58); an index outside the space is refused
(93 U5). -/
def hostMemRead (sp : Space) (idx : Nat) (s : State) : Outcome :=
  if idx < capacity s.params sp then .next (s.reply (.byte (s.byteAt sp idx))) else .refused .noSuchCell

/-- A host action takes effect (R21). -/
def perform (a : HostAction) (s : State) : Outcome :=
  match a with
  | .regWrite off v => hostRegWrite off v s
  | .regRead off => hostRegRead off s
  | .memWrite8 sp idx b => hostMemWrite sp idx b s
  | .memRead8 sp idx => hostMemRead sp idx s
  | .reset => .next s.resetBlock

/-- The engine's turn while BUSY: the completion step of the command that STATUS.OP names (R151). OP = 0 names none. -/
def engineTurn (s : State) : Outcome :=
  if s.status.op = 0 then .fault .busyWithoutCommand else exec (Instr.ofOp s.status.op) s

/-- Who moves next. -/
inductive Move where
  /-- The engine's completion step. -/
  | engine
  /-- This host action takes effect. -/
  | host (a : HostAction)
  /-- Nothing takes effect: an action begins to be held, the engine has no enabled step, or nothing is to come. -/
  | quiet
deriving DecidableEq, Repr

/-- The next move while BUSY (R154): a STATUS read and Reset take effect at once; any other host action begins to be held;
while one is held the host waits, so the next move is the engine's, unless a Reset comes first (R61, R220). With no move
left in the inbox the engine completes (R229). -/
def State.busyMove (s : State) : Move × State :=
  match s.inbox with
  | [] => (.engine, s)
  | .engine :: rest => (.engine, { s with inbox := rest })
  | .host a :: rest =>
    if a = .reset then (.host .reset, { s with inbox := rest })
    else if s.held ≠ none then (.engine, s)
    else if waitsWhileBusy a then (.quiet, { s with inbox := rest, held := some a })
    else (.host a, { s with inbox := rest })

/-- The next move while not BUSY: a held action takes effect first, in issue order (R154); then the next host action. The
engine has no enabled step (R151). -/
def State.freeMove (s : State) : Move × State :=
  match s.held with
  | some a => (.host a, { s with held := none })
  | none =>
    match s.inbox with
    | [] => (.quiet, s)
    | .engine :: rest => (.quiet, { s with inbox := rest })
    | .host a :: rest => (.host a, { s with inbox := rest })

/-- The next move and the state it is made from. -/
def State.nextMove (s : State) : Move × State :=
  if s.status.state = .busy then s.busyMove else s.freeMove

/-- Make a move. -/
def makeMove : Move → State → Outcome
  | .engine, s => engineTurn s
  | .host a, s => perform a s
  | .quiet, s => .next s

end Sys2Proof.Machine
end

