-- ==== Sys2Proof/Machine/Step.lean ====
section
/-! DEFINITION. One step of the machine: the next atomic move of the host or of the engine (R20, R61). -/

namespace Sys2Proof.Machine

/-- One step: the next move (`State.nextMove`) is made. Where nothing is left to do the state stays (log 7). -/
def step (s : State) : Outcome :=
  makeMove s.nextMove.1 s.nextMove.2

/-- `s` with a command word as the next thing to run. The block fetches nothing (R24, R64): its next instruction is the
data of the host's next CTRL write, so the write of the word is put at the head of the inbox. Where a command is in
progress the write would be held; so BUSY is dropped, and an action being held comes after the write (log 8). -/
def State.withFetchWord (s : State) (nbits w : Nat) : State :=
  { s with
    status := if s.status.state = .busy then statusCleared else s.status
    held := none
    inbox := .host (.regWrite (regOffset .ctrl) (BitVec.ofNat 32 (w % 2 ^ nbits))) ::
      (s.held.toList.map .host ++ s.inbox) }

end Sys2Proof.Machine
end

