-- ==== Sys2Proof/Machine/Codec.lean ====
section
/-! DEFINITION. The host's wire codec: the contract of R172 and its reference instance (R174). Nothing here is in the
block (R4). -/

namespace Sys2Proof.Machine

/-- Parameter CODEC: a pair of total functions with the round-trip law for every Message the codec can carry (R172).
`none` is SchemaDecodeError. -/
structure Codec where
  decode : List Byte → Option Message
  encode : Message → List Byte
  carries : Message → Prop
  round_trip : ∀ m, carries m → decode (encode m) = some m

/-- `LE32(v)`: the four bytes of a u32, least significant byte first (R174). -/
def le32 (v : Word) : List Byte :=
  [v.extractLsb' 0 8, v.extractLsb' 8 8, v.extractLsb' 16 8, v.extractLsb' 24 8]

/-- The number four bytes stand for: `b0 + 256*b1 + 65536*b2 + 16777216*b3` (R174). -/
def fromLe32 (b0 b1 b2 b3 : Byte) : Nat :=
  b0.toNat + 256 * b1.toNat + 65536 * b2.toNat + 16777216 * b3.toNat

/-- `RefCodec.encode`: the width, the height and the length, each as four bytes, then the buffer; defined when the buffer is
shorter than 2^32 bytes (R174). For a longer one R174 states no result, and the bytes are a free value: DESIGN CHOICE (log 18). -/
def refEncode (m : Message) : List Byte :=
  if m.buf.length < 2 ^ 32 then le32 m.width ++ le32 m.height ++ le32 (BitVec.ofNat 32 m.buf.length) ++ m.buf
  else Config.refEncodeOversized m

/-- `RefCodec.decode`: SchemaDecodeError when the header is truncated, or when the payload is not of the length that the
header gives, shorter or longer (R174). -/
def refDecode : List Byte → Option Message
  | w0 :: w1 :: w2 :: w3 :: h0 :: h1 :: h2 :: h3 :: n0 :: n1 :: n2 :: n3 :: buf =>
    if buf.length = fromLe32 n0 n1 n2 n3 then
      some { width := BitVec.ofNat 32 (fromLe32 w0 w1 w2 w3), height := BitVec.ofNat 32 (fromLe32 h0 h1 h2 h3), buf := buf }
    else none
  | _ => none

/-- The four bytes of a word stand for it. -/
theorem fromLe32_le32 (v : Word) :
    fromLe32 (v.extractLsb' 0 8) (v.extractLsb' 8 8) (v.extractLsb' 16 8) (v.extractLsb' 24 8) = v.toNat := by
  have h := v.isLt
  simp only [fromLe32, BitVec.extractLsb'_toNat, Nat.shiftRight_eq_div_pow]
  omega

/-- The round trip of RefCodec, for every Message whose buffer is shorter than 2^32 bytes. -/
theorem refDecode_refEncode (m : Message) (h : m.buf.length < 2 ^ 32) : refDecode (refEncode m) = some m := by
  obtain ⟨w, ht, buf⟩ := m
  simp only [refEncode, if_pos h, le32, List.cons_append, List.nil_append, refDecode, fromLe32_le32, BitVec.toNat_ofNat]
  rw [if_pos (Nat.mod_eq_of_lt h).symm]
  simp

/-- RefCodec, the reference instance (R174). -/
def refCodec : Codec :=
  { decode := refDecode, encode := refEncode, carries := fun m => m.buf.length < 2 ^ 32, round_trip := refDecode_refEncode }

end Sys2Proof.Machine
end

