-- ==== Sys2Proof/Machine/HostProgram.lean ====
section
/-! DEFINITION. The host's line notation (R88, R89), the actions each line stands for, and running the machine on them. -/

namespace Sys2Proof.Machine

/-- One line of a host program (R88), or a pseudo-line (R89). `PROCESS` is not among them: its actions depend on what it
reads, so it is the driver `process`. -/
inductive Line where
  /-- `WR reg, value` -/
  | wr (r : Reg) (v : Word)
  /-- `RD reg` -/
  | rd (r : Reg)
  /-- `MW space[idx], byte`. R88 gives the line for PIX and GRAY; that it can be written of LBPM too, and is then the host
  write that R40 ignores, is the model's (log 19). -/
  | mw (sp : Space) (idx : Nat) (b : Byte)
  /-- `MR space[idx]` -/
  | mr (sp : Space) (idx : Nat)
  /-- `CLR`, `GRAY`, `LBP`, `PROC` -/
  | command (i : Instr)
  /-- `RESET` -/
  | reset
  /-- `FRAME w, h, n` -/
  | frame (w h n : Word)
  /-- `LOAD space, b0 b1 ... bk`, for PIX and GRAY as `MW` is; of LBPM, or with no byte at all, it is the model's (log 19). -/
  | load (sp : Space) (bytes : List Byte)
  /-- `WAIT`, with how many reads can return BUSY before the engine takes its turn (93 U8) -/
  | wait (busyReads : Nat)
  /-- `DUMP space, n` -/
  | dump (sp : Space) (n : Nat)
deriving DecidableEq, Repr

/-- `MW space[i], b` for the bytes of a buffer, from index `start` upwards. -/
def loadActions (sp : Space) : Nat → List Byte → List HostAction
  | _, [] => []
  | start, b :: bs => .memWrite8 sp start b :: loadActions sp (start + 1) bs

/-- `MR space[start]`, and so on for `n` cells. -/
def dumpActions (sp : Space) : Nat → Nat → List HostAction
  | _, 0 => []
  | start, n + 1 => .memRead8 sp start :: dumpActions sp (start + 1) n

/-- The actions of a line: "that action tuple is the line's encoding" (R88, R89). A WAIT has no fixed tuple; its entry here is
the one action that it repeats. -/
def lineActions : Line → List HostAction
  | .wr r v => [.regWrite (regOffset r) v]
  | .rd r => [.regRead (regOffset r)]
  | .mw sp idx b => [.memWrite8 sp idx b]
  | .mr sp idx => [.memRead8 sp idx]
  | .command i => [ctrlWrite i]
  | .reset => [.reset]
  | .frame w h n =>
    [.regWrite (regOffset .width) w, .regWrite (regOffset .height) h, .regWrite (regOffset .len) n]
  | .load sp bytes => loadActions sp 0 bytes
  | .wait _ => [.regRead (regOffset .status)]
  | .dump sp n => dumpActions sp 0 n

/-- `k` steps, stopping at the first stop. -/
def run : Nat → State → Outcome
  | 0, s => .next s
  | k + 1, s =>
    match step s with
    | .next t => run k t
    | .fault f => .fault f
    | .refused r => .refused r

/-- Go on from a next state; a stop stays a stop. -/
def andThen (o : Outcome) (f : State → Outcome) : Outcome :=
  match o with
  | .next t => f t
  | .fault e => .fault e
  | .refused r => .refused r

/-- At most `k` steps, until every move in the inbox has been made and nothing is held. -/
def settle : Nat → State → Outcome
  | 0, s => .next s
  | k + 1, s => if s.inbox = [] ∧ s.held = none then .next s else andThen (step s) (settle k)

/-- What is already to come takes place: every move in the inbox is made, and what is held takes effect. A move takes at most
three steps (an action begins to be held, the engine completes, the action takes effect), an action that is already held two. -/
def drain (s : State) : Outcome :=
  settle (3 * s.inbox.length + 2) s

/-- The host issues one action, after its earlier ones (R61), and waits until it has taken effect. -/
def act (a : HostAction) (s : State) : Outcome :=
  andThen (drain s) fun t => drain { t with inbox := t.inbox ++ [.host a] }

/-- The host issues actions one after another. -/
def actAll : List HostAction → State → Outcome
  | [], s => .next s
  | a :: as, s => andThen (act a s) (actAll as)

/-- The host issues nothing more. What is already to come takes place, and then the engine takes its turn if a command is in
progress, so the block is not BUSY afterwards (R229). -/
def finish (s : State) : Outcome :=
  andThen (drain s) fun t => if t.status.state = .busy then step t else .next t

/-- Whether the value that the host read last is a STATUS word with STATE = BUSY. -/
def State.lastReadBusy (s : State) : Bool :=
  match s.replies.getLast? with
  | some (.word v) => wordState v == RunState.busy.code
  | some (.byte _) => false
  | none => false

/-- `WAIT`: "repeat RD STATUS until the value read has STATE != BUSY; the last value read is the result" (R89). The
environment lets at most `busyReads` of the reads return BUSY before the engine takes its turn (R154, 93 U8; log 5). The read
after that turn cannot return BUSY, whatever was to come before the WAIT: no action of the host stands between the two. -/
def wait : Nat → State → Outcome
  | 0, s => andThen (finish s) (act (.regRead (regOffset .status)))
  | busyReads + 1, s =>
    andThen (act (.regRead (regOffset .status)) s) fun t => if t.lastReadBusy then wait busyReads t else .next t

/-- The host performs one line. -/
def runLine : Line → State → Outcome
  | .wait busyReads, s => wait busyReads s
  | l, s => actAll (lineActions l) s

/-- The host performs the lines of a program. -/
def runLines : List Line → State → Outcome
  | [], s => .next s
  | l :: ls, s => andThen (runLine l s) (runLines ls)

/-- Run a host program, and let the block complete the command that the program leaves in progress, if any (R229). -/
def runProgram (p : List Line) (s : State) : Outcome :=
  andThen (runLines p s) finish

end Sys2Proof.Machine
end

