-- ==== Sys2Proof/Machine/Driver.lean ====
section
/-! DEFINITION. How a Message is presented to the block and read back (R87), one command on one Message, and the host driver
`process` (R175, R176). -/

namespace Sys2Proof.Machine

/-- How a Message maps onto the block: "`WIDTH = width`, `HEIGHT = height`, `LEN = len(buf)`, and `source[i] = buf[i]`", with
the source memory of the command (R87). -/
def presentLines (source : Space) (m : Message) : List Line :=
  [.frame m.width m.height (BitVec.ofNat 32 m.buf.length), .load source m.buf]

/-- The response of a command that ended DONE: "`Message {width = WIDTH, height = HEIGHT, buf = dest[0 .. OUTLEN-1]}`", where
`dest` is the memory that OP names, GRAY after GRAY and LBPM after LBP or PROC (R87, R29). -/
def State.response (s : State) : Option Message :=
  if s.status.state = .done then
    some { width := s.width, height := s.height
           buf := (List.range s.outlen.toNat).map (s.byteAt (resultSpace s.status.op)) }
  else none

/-- The result of one command on one Message. -/
inductive CallResult where
  | ok (m : Message)
  | err (kind : ErrorKind)
  /-- The call is outside the block's domain: the command takes no Message (CLR), or the buffer is longer than the source
  memory, which a model refuses (R87, R176, 93 U1), or the machine stopped. -/
  | noResult
deriving DecidableEq, Repr

/-- The value a word reply carries. -/
def replyWord : Reply → Word
  | .word v => v
  | .byte b => b.setWidth 32

/-- The value a byte reply carries. -/
def replyByte : Reply → Byte
  | .word v => v.setWidth 8
  | .byte b => b

/-- Read the response out of the block: WIDTH, HEIGHT and OUTLEN, then that many bytes of the result memory (R87, R176). -/
def readMessage (result : Space) (s : State) : CallResult × State :=
  match runProgram [.rd .width, .rd .height, .rd .outlen] s with
  | .fault _ => (.noResult, s)
  | .refused _ => (.noResult, s)
  | .next t =>
    match (t.replies.drop s.replies.length).map replyWord with
    | [w, h, k] =>
      match runProgram [.dump result k.toNat] t with
      | .fault _ => (.noResult, t)
      | .refused _ => (.noResult, t)
      | .next u => (.ok { width := w, height := h, buf := (u.replies.drop t.replies.length).map replyByte }, u)
    | _ => (.noResult, t)

/-- One command on one Message (R87, the body of R176): present it, issue the command, wait, and answer the response or the
error kind that STATUS gives. At most `busyReads` STATUS reads return BUSY. A Message that does not fit the source memory,
one of 2^32 bytes or more among them, is turned away before the block is touched. -/
def callCommand (i : Instr) (busyReads : Nat) (m : Message) (s : State) : CallResult × State :=
  match frameOperands i with
  | none => (.noResult, s)
  | some o =>
    if capacity s.params o.source < m.buf.length then (.noResult, s)
    else
      match runProgram (presentLines o.source m ++ [.command i, .wait busyReads]) s with
      | .fault _ => (.noResult, s)
      | .refused _ => (.noResult, s)
      | .next t =>
        match t.replies.getLast? with
        | none => (.noResult, t)
        | some r =>
          if wordState (replyWord r) = RunState.error.code ∧ wordErr (replyWord r) = 2 then
            (.err .dimensionMismatch, t)
          else if wordState (replyWord r) = RunState.error.code ∧ wordErr (replyWord r) = 3 then
            (.err .invalidDimensions, t)
          else if wordState (replyWord r) = RunState.done.code then readMessage o.result t
          else (.noResult, t)

/-- The discriminated result of `process` (R175). -/
inductive ProcessResult where
  | ok (bytes : List Byte)
  | err (kind : ErrorKind)
  /-- The call is outside the block's domain: the buffer is longer than PIX, which a model refuses (R176, 93 U1), or the
  machine stopped. -/
  | noResult
deriving DecidableEq, Repr

/-- `process(bytes)`: decode, PROC on the Message, and the encoded response or the error kind (R176). It answers the result
and the state it leaves the block in. -/
def process (c : Codec) (busyReads : Nat) (bytes : List Byte) (s : State) : ProcessResult × State :=
  match c.decode bytes with
  | none => (.err .schemaDecode, s)
  | some m =>
    match callCommand .proc busyReads m s with
    | (.ok r, t) => (.ok (c.encode r), t)
    | (.err e, t) => (.err e, t)
    | (.noResult, t) => (.noResult, t)

end Sys2Proof.Machine
end

