-- ==== Sys2Proof/Safety.lean ====
section
/-! DEFINITION. What the statements speak of: the invariant of the block's states, what it is for a step to leave the host's
side or a memory alone, and a block between calls. -/

namespace Sys2Proof.Machine

/-- The invariant: what the spec says of every state a run reaches. -/
structure State.Inv (s : State) : Prop where
  /-- Each memory is in its canonical form. -/
  wf : ∀ sp, Memory.wf (s.mem sp)
  /-- No cell outside a memory is ever written (R50). -/
  within : ∀ sp, Memory.within (s.mem sp) (capacity s.params sp)
  /-- "`ERR != 0` exactly when `STATE = ERROR`" (R28). -/
  err_iff : s.status.err ≠ 0 ↔ s.status.state = .error
  /-- ERR is 0, 2 or 3: 1 is never set by the block, 4 to 15 never appear (R28, R194). -/
  err_legal : s.status.err = 0 ∨ s.status.err = 2 ∨ s.status.err = 3
  /-- OP is 0 exactly in IDLE: CLR and Reset give both, and every other command issues with its OP (R29, R150, R153). -/
  op_iff : s.status.op = 0 ↔ s.status.state = .idle
  /-- OUTLEN is 0 unless STATE = DONE (R33, R150). -/
  outlen_zero : s.status.state ≠ .done → s.outlen = 0
  /-- In DONE, OUTLEN is the length of a result that is not empty and fits its memory (R33, R192, R7). -/
  outlen_bounds : s.status.state = .done → 1 ≤ s.outlen.toNat ∧ s.outlen.toNat ≤ s.params.maxPix
  /-- In DONE, every byte of the result is in its memory: "its result is in the destination memory" (R27, R29). -/
  result_written : s.status.state = .done → ∀ i < s.outlen.toNat, s.cell (resultSpace s.status.op) i ≠ none
  /-- The command in progress has LEN within the capacity of its source memory (R223 (b)). -/
  busy_len : s.status.state = .busy → ∀ o, frameOperands (Instr.ofOp s.status.op) = some o →
    s.len.toNat ≤ capacity s.params o.source
  /-- Only an action that the hold applies to is ever held (R154). -/
  held_waits : ∀ a, s.held = some a → waitsWhileBusy a = true

/-- The two commands' states agree on all that is not the block's: the parameters, the host's coming moves, what is held,
what the host has read, and the count of Resets. -/
def HostSideSame (s t : State) : Prop :=
  t.params = s.params ∧ t.inbox = s.inbox ∧ t.held = s.held ∧ t.replies = s.replies ∧ t.resets = s.resets

/-- The descriptor registers agree (R30, R31, R32). -/
def DescriptorSame (s t : State) : Prop :=
  t.width = s.width ∧ t.height = s.height ∧ t.len = s.len

/-- Every cell of a memory is as before: the same byte, or unwritten as before. -/
def CellsSame (sp : Space) (s t : State) : Prop :=
  ∀ i, t.cell sp i = s.cell sp i

/-- The block between two calls of a host: nothing is to come and nothing is held. -/
def State.Between (s : State) : Prop := s.inbox = [] ∧ s.held = none

/-- The result bytes of a command on the frame of a Message (R111, R115, R137, R152); CLR has none. -/
def resultImage (i : Instr) (L : Luma) (m : Message) : List Byte :=
  let buf := fun j => m.buf.getD j 0
  match i with
  | .clr => []
  | .gray => grayFn L m.width.toNat m.height.toNat buf
  | .lbp => lbpFn m.width.toNat m.height.toNat buf
  | .proc => lbpFn m.width.toNat m.height.toNat fun p => (grayFn L m.width.toNat m.height.toNat buf).getD p 0

/-- `W * H`, the number of cells of the frame in the descriptor registers. -/
def State.area (s : State) : Nat := s.width.toNat * s.height.toNat

end Sys2Proof.Machine
end

