-- ==== Sys2Proof/WellFormed.lean ====
section
/-! DEFINITION. What is well-formed: every command (R82), the host actions inside the maps (R22, R50; the others are 93 U4
and U5), and the Messages that can be presented (R87) or meet the length invariants (R170). -/

namespace Sys2Proof

/-- Every command is well-formed: it has no operand, and "there is no illegal command" (R81, R82). -/
def Instr.wf : Instr → Bool
  | .clr | .gray | .lbp | .proc => true

/-- A register offset inside the map: a multiple of 4 below 0x18 (R22). -/
def regOffsetWf (off : Nat) : Bool :=
  off % 4 == 0 && decide (off < 0x18)

/-- A cell inside its memory: PIX has `4 * MAXPIX` cells, GRAY and LBPM have `MAXPIX` (R50). -/
def cellWf (p : Params) (sp : Space) (idx : Nat) : Bool :=
  match sp with
  | .pix => decide (idx < 4 * p.maxPix)
  | .gray | .lbpm => decide (idx < p.maxPix)

/-- A host action inside the maps. -/
def HostAction.wf (p : Params) : HostAction → Bool
  | .regWrite off _ | .regRead off => regOffsetWf off
  | .memWrite8 sp idx _ | .memRead8 sp idx => cellWf p sp idx
  | .reset => true

/-- LEN has 32 bits: "A Message whose `len(buf)` is 2^32 or more cannot be presented" (R87). -/
def Message.presentable (m : Message) : Bool :=
  decide (m.buf.length < 2 ^ 32)

/-- Request semantics: `len(buf) == width*height*4` (R170). -/
def Message.validRequest (m : Message) : Bool :=
  m.buf.length == m.width.toNat * m.height.toNat * 4

/-- Response semantics: `len(buf) == width*height` (R170). -/
def Message.validResponse (m : Message) : Bool :=
  m.buf.length == m.width.toNat * m.height.toNat

end Sys2Proof
end

