-- ==== Sys2Proof/Certificates/Slice0/Obligations.lean ====
section
/-! DEFINITION. The statements about the block, in the order of OBLIGATIONS.json. Each docstring names the rule of spec/ that
the statement formalises. -/

open Sys2Proof Sys2Proof.Machine

/-! ### Commands and their words -/

/-- R80: the opcode map as match and mask, and the source, arity and result memory of each command. -/
def Obligations.DecodeFollowsOpcodeMap : Prop :=
  (∀ v : Word, (decode v = .clr ↔ v &&& 0x00000003 = 0x00000000) ∧ (decode v = .gray ↔ v &&& 0x00000003 = 0x00000001) ∧
    (decode v = .lbp ↔ v &&& 0x00000003 = 0x00000002) ∧ (decode v = .proc ↔ v &&& 0x00000003 = 0x00000003)) ∧
  frameOperands .clr = none ∧ frameOperands .gray = some ⟨.pix, 4, .gray⟩ ∧
  frameOperands .lbp = some ⟨.gray, 1, .lbpm⟩ ∧ frameOperands .proc = some ⟨.pix, 4, .lbpm⟩

/-- R82: every word is a command, and `v` and `v & 3` are the same command. -/
def Obligations.EveryWordIsACommand : Prop :=
  ∀ v : Word, decodeTableWord 32 v.toNat = some (decode v) ∧ decode v = decode (v &&& 3)

/-- R80, R83: the decoder reads back every command from its word whatever the 30 reserved bits hold, the encoder writes them
as 0, and a bit string is a command exactly when it has 32 bits. -/
def Obligations.DecodeOfEncodeWithAnyReservedBits : Prop :=
  (∀ (i : Instr) (r : BitVec 30), decode (encode i ||| (r.setWidth 32 <<< 2)) = i ∧ (encode i).extractLsb' 2 30 = 0) ∧
  ∀ nbits w : Nat, ((∃ i, decodeBits nbits w = .ok i) ↔ nbits = 32) ∧ (decodeTableWord nbits w = none ↔ nbits ≠ 32)

/-- R80: words written out from the opcode map, bit by bit, decode to the commands they stand for. -/
def Obligations.WrittenOutWordsDecode : Prop :=
  decode 0b00000000000000000000000000000000#32 = .clr ∧ decode 0b00000000000000000000000000000001#32 = .gray ∧
  decode 0b00000000000000000000000000000010#32 = .lbp ∧ decode 0b00000000000000000000000000000011#32 = .proc ∧
  decode 0b11111111111111111111111111111100#32 = .clr ∧ decode 0b10000000000000000000000000000110#32 = .lbp

/-- R25, R150: where the host's next action, or the action it has held, is a CTRL write and no command is in progress, the
step is `exec` of the command that the decoder reads from the word, on the state with that action taken off. That actions
come from an inbox is the model's (log 5). -/
def Obligations.StepRunsTheDecodedCommand : Prop :=
  ∀ (s : State) (v : Word), s.status.state ≠ .busy →
    (∀ rest, s.held = none → s.inbox = .host (.regWrite 0x00 v) :: rest →
      step s = exec (decode v) { s with inbox := rest }) ∧
    (s.held = some (.regWrite 0x00 v) → step s = exec (decode v) { s with held := none })

/-- R151: while a command is in progress the engine's turn is `exec` of the command that STATUS.OP names. Its turn comes
where the environment places it, where a host action is held and the next one is not Reset, and where nothing else is to
come. The placing of turns is the model's (logs 5 and 6). -/
def Obligations.EngineTurnRunsTheCommandInProgress : Prop :=
  ∀ (i : Instr) (s : State), s.status.state = .busy → s.status.op = i.op → i ≠ .clr →
    (∀ rest, s.inbox = .engine :: rest → step s = exec i { s with inbox := rest }) ∧
    (s.inbox = [] → step s = exec i s) ∧
    (∀ a rest, s.held ≠ none → s.inbox = .host a :: rest → a ≠ .reset → step s = exec i s)

/-- R24, R64: a command word placed with `withFetchWord` is what the very next step runs, in every state. How it is placed is
the model's (log 8). -/
def Obligations.PlacedWordRunsNext : Prop :=
  ∀ (s : State) (v : Word), ∃ t : State,
    step (s.withFetchWord 32 v.toNat) = exec (decode v) t ∧
    t.status.state ≠ .busy ∧ t.width = s.width ∧ t.height = s.height ∧ t.len = s.len ∧ t.outlen = s.outlen ∧
    t.pix = s.pix ∧ t.gray = s.gray ∧ t.lbpm = s.lbpm ∧ t.params = s.params ∧ t.replies = s.replies ∧
    (s.status.state ≠ .busy → t.status = s.status)

/-! ### Issue, hold and completion -/

/-- R150: from IDLE, DONE and ERROR alike GRAY, LBP and PROC issue, and nothing but STATUS and OUTLEN changes. A CTRL write
while BUSY is held, and takes effect after completion. (A LEN above the capacity is 93 U1: `OversizedLenIsRefused`.) -/
def Obligations.FrameCommandsIssue : Prop :=
  (∀ (i : Instr) (o : FrameOperands) (s : State), frameOperands i = some o → s.status.state ≠ .busy →
    s.len.toNat ≤ capacity s.params o.source →
    exec i s = .next { s with status := ⟨.busy, 0, i.op⟩, outlen := 0 }) ∧
  (∀ (s : State) (v : Word) (rest : List Event), s.status.state = .busy → s.held = none →
    s.inbox = .host (.regWrite 0x00 v) :: rest →
    step s = .next { s with inbox := rest, held := some (.regWrite 0x00 v) }) ∧
  (∀ (s : State) (v : Word), s.status.state ≠ .busy → s.held = some (.regWrite 0x00 v) →
    step s = exec (decode v) { s with held := none })

/-- R153: CLR sets STATUS and OUTLEN to 0 and changes nothing else, from every state that is not BUSY; in IDLE it changes
nothing at all. -/
def Obligations.ClrReturnsToIdle : Prop :=
  (∀ s : State, s.status.state ≠ .busy →
    exec .clr s = .next { s with status := ⟨.idle, 0, 0⟩, outlen := 0 }) ∧
  (∀ s : State, s.Inv → s.status.state = .idle → exec .clr s = .next s)

/-- R154, R155: a command run at a state where another one is in progress does not take effect: its CTRL write is held and
the rest of the state is as it was. That `exec` holds it is the model's (log 9). -/
def Obligations.CommandWhileAnotherRunsIsHeld : Prop :=
  ∀ (i : Instr) (s : State), s.status.state = .busy → s.status.op ≠ i.op → s.held = none →
    exec i s = .next { s with held := some (.regWrite 0x00 (encode i)) }

/-- R117: GRAY in progress on a frame that passes the check completes: every pixel's luminance is in GRAY, OUTLEN is `W * H`,
STATE is DONE with OP = 1; GRAY from `W * H` up, PIX, LBPM, the descriptor and the host's side are unchanged. -/
def Obligations.GrayCompletes : Prop :=
  ∀ s : State, s.status.state = .busy → s.status.op = 1 → s.len.toNat ≤ 4 * s.params.maxPix →
    s.len.toNat = 4 * s.area → 1 ≤ s.width.toNat → 1 ≤ s.height.toNat →
    ∃ t, exec .gray s = .next t ∧ t.status = ⟨.done, 0, 1⟩ ∧ t.outlen.toNat = s.area ∧
      (∀ p < s.area, t.cell .gray p =
        some (luma s.params.luma (s.byteAt .pix (4 * p)) (s.byteAt .pix (4 * p + 1)) (s.byteAt .pix (4 * p + 2)))) ∧
      (∀ p, s.area ≤ p → t.cell .gray p = s.cell .gray p) ∧
      CellsSame .pix s t ∧ CellsSame .lbpm s t ∧ DescriptorSame s t ∧ HostSideSame s t

/-- R141: LBP in progress on a frame that passes the check completes: the cell at column `x`, row `y` of LBPM holds its code
if it is interior and 0 if it is border; LBPM from `W * H` up, GRAY, PIX, the descriptor and the host's side are unchanged. -/
def Obligations.LbpCompletes : Prop :=
  ∀ s : State, s.status.state = .busy → s.status.op = 2 → s.len.toNat ≤ s.params.maxPix →
    s.len.toNat = s.area → 1 ≤ s.width.toNat → 1 ≤ s.height.toNat →
    ∃ t, exec .lbp s = .next t ∧ t.status = ⟨.done, 0, 2⟩ ∧ t.outlen.toNat = s.area ∧
      (∀ x < s.width.toNat, ∀ y < s.height.toNat, t.cell .lbpm (y * s.width.toNat + x) =
        some (lbpCell s.width.toNat s.height.toNat (s.byteAt .gray) x y)) ∧
      (∀ p, s.area ≤ p → t.cell .lbpm p = s.cell .lbpm p) ∧
      CellsSame .pix s t ∧ CellsSame .gray s t ∧ DescriptorSame s t ∧ HostSideSame s t

/-- R152: PROC in progress on a frame that passes the check completes: GRAY holds the luminances of PIX, and LBPM holds the
code of each cell computed from the bytes that GRAY holds afterwards; the rest is unchanged. -/
def Obligations.ProcCompletes : Prop :=
  ∀ s : State, s.status.state = .busy → s.status.op = 3 → s.len.toNat ≤ 4 * s.params.maxPix →
    s.len.toNat = 4 * s.area → 1 ≤ s.width.toNat → 1 ≤ s.height.toNat →
    ∃ t, exec .proc s = .next t ∧ t.status = ⟨.done, 0, 3⟩ ∧ t.outlen.toNat = s.area ∧
      (∀ p < s.area, t.cell .gray p =
        some (luma s.params.luma (s.byteAt .pix (4 * p)) (s.byteAt .pix (4 * p + 1)) (s.byteAt .pix (4 * p + 2)))) ∧
      (∀ x < s.width.toNat, ∀ y < s.height.toNat, t.cell .lbpm (y * s.width.toNat + x) =
        some (lbpCell s.width.toNat s.height.toNat (t.byteAt .gray) x y)) ∧
      (∀ p, s.area ≤ p → t.cell .gray p = s.cell .gray p ∧ t.cell .lbpm p = s.cell .lbpm p) ∧
      CellsSame .pix s t ∧ DescriptorSame s t ∧ HostSideSame s t

/-- R191, R192, R196: a command in progress whose frame fails the check enters ERROR: code 2 where LEN is not
`W * H * arity` in exact arithmetic, code 3 where it is and a dimension is 0; OUTLEN is 0 and nothing else changes. -/
def Obligations.FailedCheckEntersError : Prop :=
  ∀ (i : Instr) (o : FrameOperands) (s : State), frameOperands i = some o → s.status.state = .busy →
    s.status.op = i.op → s.len.toNat ≤ capacity s.params o.source →
    (s.len.toNat ≠ s.width.toNat * s.height.toNat * o.arity →
      exec i s = .next { s with outlen := 0, status := ⟨.error, 2, s.status.op⟩ }) ∧
    (s.len.toNat = s.width.toNat * s.height.toNat * o.arity → s.width.toNat = 0 ∨ s.height.toNat = 0 →
      exec i s = .next { s with outlen := 0, status := ⟨.error, 3, s.status.op⟩ })

/-- R200: the five rows of the frame check's table, for a 32-bit LEN. -/
def Obligations.FrameCheckCoversAllCases : Prop :=
  ∀ (arity : Nat) (w h n : Word), arity = 1 ∨ arity = 4 →
    (1 ≤ w.toNat → 1 ≤ h.toNat → n.toNat = w.toNat * h.toNat * arity → validate arity w.toNat h.toNat n.toNat = none) ∧
    (1 ≤ w.toNat → 1 ≤ h.toNat → n.toNat ≠ w.toNat * h.toNat * arity →
      validate arity w.toNat h.toNat n.toNat = some .dimensionMismatch) ∧
    (w.toNat = 0 ∨ h.toNat = 0 → n.toNat = 0 → validate arity w.toNat h.toNat n.toNat = some .invalidDimensions) ∧
    (w.toNat = 0 ∨ h.toNat = 0 → n.toNat ≠ 0 → validate arity w.toNat h.toNat n.toNat = some .dimensionMismatch) ∧
    (2 ^ 32 ≤ w.toNat * h.toNat * arity → validate arity w.toNat h.toNat n.toNat = some .dimensionMismatch)

/-- R32, R202, 93 U1: GRAY, LBP and PROC with LEN above the capacity of the source memory are outside the defined behaviour
and the model refuses them, at issue and while in progress (the latter is the model's choice, log 10). -/
def Obligations.OversizedLenIsRefused : Prop :=
  ∀ (i : Instr) (o : FrameOperands) (s : State), frameOperands i = some o →
    s.status.state ≠ .busy ∨ s.status.op = i.op → capacity s.params o.source < s.len.toNat →
    exec i s = .refused .lenAboveCapacity

/-- R154: while BUSY a STATUS read takes effect at once, returns STATE = 1, ERR = 0 and the OP of the running command, and
changes nothing else; every other action except Reset begins to be held and changes nothing else; a held action takes
effect at the first step after the block has left BUSY, before any later action. The inbox and the one held action are the
model's (logs 5 and 6). -/
def Obligations.HoldWhileBusy : Prop :=
  (∀ (s : State) (rest : List Event), s.Inv → s.status.state = .busy → s.held = none →
    s.inbox = .host (.regRead 0x04) :: rest →
    step s = .next { s with inbox := rest, replies := s.replies ++ [.word (⟨.busy, 0, s.status.op⟩ : Status).word] }) ∧
  (∀ (s : State) (a : HostAction) (rest : List Event), s.status.state = .busy → s.held = none →
    s.inbox = .host a :: rest → a ≠ .reset → a ≠ .regRead 0x04 →
    step s = .next { s with inbox := rest, held := some a }) ∧
  (∀ (s : State) (a : HostAction), s.status.state ≠ .busy → s.held = some a →
    step s = perform a { s with held := none })

/-- R154, R155: the STATUS reads that follow a command can return BUSY any number of times, from zero up: for every `n`, where
the inbox places the command and `n` STATUS reads and no engine turn among them, they run, every one of the `n` reads returns
BUSY with the command's OP, and the command is still in progress. That every one returns BUSY is because the inbox places no
engine turn among them: how many reads return BUSY is the environment's choice, which the model names in the inbox (log 5). -/
def Obligations.StatusCanReadBusyAnyNumberOfTimes : Prop :=
  ∀ (i : Instr) (o : FrameOperands) (s : State) (n : Nat) (rest : List Event), frameOperands i = some o →
    s.status.state ≠ .busy → s.held = none → s.len.toNat ≤ capacity s.params o.source →
    s.inbox = .host (.regWrite 0x00 (encode i)) :: (List.replicate n (.host (.regRead 0x04)) ++ rest) →
    ∃ t, run (n + 1) s = .next t ∧ t.status = ⟨.busy, 0, i.op⟩ ∧ t.inbox = rest ∧
      t.replies = s.replies ++ List.replicate n (.word (⟨.busy, 0, i.op⟩ : Status).word)

/-- R154, R157: how many STATUS reads return BUSY changes nothing but what those reads returned: a command waited for with
`n` such reads leaves the same state as with none, but for `n` more replies. How
many reads return BUSY is the environment's choice, which the model names in the WAIT line (log 5). -/
def Obligations.BusyReadsDoNotMatter : Prop :=
  ∀ (i : Instr) (o : FrameOperands) (s : State) (n : Nat), frameOperands i = some o → s.Between →
    s.status.state ≠ .busy → s.len.toNat ≤ capacity s.params o.source →
    ∃ t, runProgram [.command i, .wait 0] s = .next t ∧ t.replies = s.replies ++ [.word t.status.word] ∧
      runProgram [.command i, .wait n] s =
        .next { t with replies := s.replies ++ List.replicate n (.word (⟨.busy, 0, i.op⟩ : Status).word) ++
          [.word t.status.word] }

/-- R229: a block in BUSY leaves it: within one step more than there are moves to come it is no longer BUSY, and if no Reset
is among those moves it is in DONE or ERROR. The schedule of moves is the model's (log 5). -/
def Obligations.BusyBlockCompletes : Prop :=
  ∀ s : State, s.Inv → s.status.state = .busy →
    ∃ k ≤ s.inbox.length + 1, ∃ t, run k s = .next t ∧ t.status.state ≠ .busy ∧
      (.host .reset ∉ s.inbox → t.status.state = .done ∨ t.status.state = .error)

/-- R27: "The only transitions" of STATE, over every step of every state: to BUSY only when a command other than CLR is
written to CTRL outside BUSY; to DONE and to ERROR only by the engine's step, from BUSY; to IDLE only by CLR outside BUSY and
by Reset. -/
def Obligations.OnlyTheseStateTransitions : Prop :=
  ∀ s t : State, step s = .next t → t.status.state ≠ s.status.state →
    (t.status.state = .busy → ∃ v, s.nextMove.1 = .host (.regWrite 0x00 v) ∧ decode v ≠ .clr) ∧
    (t.status.state = .done ∨ t.status.state = .error → s.status.state = .busy ∧ s.nextMove.1 = .engine) ∧
    (t.status.state = .idle → s.nextMove.1 = .host .reset ∨
      (s.status.state ≠ .busy ∧ ∃ v, s.nextMove.1 = .host (.regWrite 0x00 v) ∧ decode v = .clr))

/-! ### Unit GC -/

/-- R112: `luma` is the weighted sum divided by DIV, rounded as RND says; nothing is lost when it is put into a byte. -/
def Obligations.LumaIsTheRoundedWeightedSum : Prop :=
  ∀ (L : Luma) (r g b : Byte),
    (L.rnd = .floor → (luma L r g b).toNat = (L.wr * r.toNat + L.wg * g.toNat + L.wb * b.toNat) / L.div) ∧
    (L.rnd = .nearest →
      (luma L r g b).toNat = (L.wr * r.toNat + L.wg * g.toNat + L.wb * b.toNat + L.div / 2) / L.div)

/-- R114: the laws of every admissible weighting: range, gray identity, monotone in each channel, black and white. (Clause
(e), determinism, holds of every function.) -/
def Obligations.LawsOfEveryLuma : Prop :=
  ∀ L : Luma,
    (∀ r g b, lumaNat L r g b ≤ 255) ∧
    (∀ v, luma L v v v = v) ∧
    (∀ r r' g g' b b' : Byte, r.toNat ≤ r'.toNat → g.toNat ≤ g'.toNat → b.toNat ≤ b'.toNat →
      (luma L r g b).toNat ≤ (luma L r' g' b').toNat) ∧
    luma L 0 0 0 = 0 ∧ luma L 255 255 255 = 255

/-- R113: the default weighting is `floor((2126*r + 7152*g + 722*b) / 10000)`, and it is the one the reset state carries
(the latter is the model's choice, log 2). -/
def Obligations.DefaultLumaFormula : Prop :=
  State.reset.params.luma = lumaDefault ∧
  ∀ r g b : Byte, (luma lumaDefault r g b).toNat = (2126 * r.toNat + 7152 * g.toNat + 722 * b.toNat) / 10000

/-- R116: the accumulator of every weighting is at most `255 * DIV`, and 22 bits hold every sum of the default one. -/
def Obligations.LumaAccumulatorWidth : Prop :=
  (∀ (L : Luma) (r g b : Byte), lumaAcc L r g b ≤ 255 * L.div) ∧
  ∀ r g b : Byte, lumaAcc lumaDefault r g b < 2 ^ 22

/-- R115, R111: `gray_fn` gives one byte for each pixel, and the byte of pixel `p` is the luma of that pixel's R, G and B. -/
def Obligations.GrayFnWholeBuffer : Prop :=
  ∀ (L : Luma) (w h : Nat) (pix : Nat → Byte),
    (grayFn L w h pix).length = w * h ∧
    ∀ p < w * h, (grayFn L w h pix)[p]? = some (luma L (pix (4 * p)) (pix (4 * p + 1)) (pix (4 * p + 2)))

/-- R111: alpha is not an input: two PixelBuffers that agree on the red, green and blue bytes of the frame's pixels have the
same gray buffer, whatever their alpha bytes and whatever lies past the frame. -/
def Obligations.AlphaIsIgnored : Prop :=
  ∀ (L : Luma) (w h : Nat) (pix pix' : Nat → Byte),
    (∀ i < 4 * (w * h), i % 4 ≠ 3 → pix i = pix' i) → grayFn L w h pix = grayFn L w h pix'

/-! ### Unit LNC -/

/-- R133, R134: bit `7 - i` of the output byte of an interior cell is 1 exactly when neighbour `i`, in clockwise order from
the top left at the listed offsets, is at least the centre, unsigned. -/
def Obligations.LbpBitsFollowTheNeighbours : Prop :=
  ∀ (w h x y : Nat) (gray : Nat → Byte), 1 ≤ x → x + 2 ≤ w → 1 ≤ y → y + 2 ≤ h →
    ∃ code, (lbpFn w h gray)[y * w + x]? = some code ∧
      ∀ (i : Nat) (dx dy : Int),
        [(-1, -1), (0, -1), (1, -1), (1, 0), (1, 1), (0, 1), (-1, 1), (-1, 0)][i]? = some (dx, dy) →
        code.getLsbD (7 - i) =
          decide ((gray (y * w + x)).toNat ≤ (gray (((y : Int) + dy) * (w : Int) + ((x : Int) + dx)).toNat).toNat)

/-- R142: the consequences of the comparison. -/
def Obligations.LbpCodeConsequences : Prop :=
  (∀ n0 n1 n2 n3 n4 n5 n6 n7, lbpCode 0 n0 n1 n2 n3 n4 n5 n6 n7 = 0xFF) ∧
  (∀ c, lbpCode c c c c c c c c c = 0xFF) ∧
  (∀ c n0 n1 n2 n3 n4 n5 n6 n7 : Byte, lbpCode c n0 n1 n2 n3 n4 n5 n6 n7 = 0 ↔
    n0 < c ∧ n1 < c ∧ n2 < c ∧ n3 < c ∧ n4 < c ∧ n5 < c ∧ n6 < c ∧ n7 < c) ∧
  (∀ (f : Fin 8 → Byte) (i : Fin 8),
    (lbpCode 255 (f 0) (f 1) (f 2) (f 3) (f 4) (f 5) (f 6) (f 7)).getLsbD (7 - i) = decide (f i = 255)) ∧
  (∀ (c : Byte) (f : Fin 8 → Byte) (k : Byte), c.toNat + k.toNat < 256 → (∀ i, (f i).toNat + k.toNat < 256) →
    lbpCode (c + k) (f 0 + k) (f 1 + k) (f 2 + k) (f 3 + k) (f 4 + k) (f 5 + k) (f 6 + k) (f 7 + k) =
      lbpCode c (f 0) (f 1) (f 2) (f 3) (f 4) (f 5) (f 6) (f 7)) ∧
  (∀ (c c' : Byte) (f f' : Fin 8 → Byte), (∀ i, c ≤ f i ↔ c' ≤ f' i) →
    lbpCode c (f 0) (f 1) (f 2) (f 3) (f 4) (f 5) (f 6) (f 7) =
      lbpCode c' (f' 0) (f' 1) (f' 2) (f' 3) (f' 4) (f' 5) (f' 6) (f' 7)) ∧
  (∀ (w h x y : Nat) (gray : Nat → Byte) (v : Byte), 3 ≤ w → 3 ≤ h → x < w → y < h →
    (lbpFn w h gray)[y * w + x]? = some v → v ≠ 0 → 1 ≤ x ∧ x + 2 ≤ w ∧ 1 ≤ y ∧ y + 2 ≤ h)

/-- R136: every border cell of the output is 0, and the output has one byte for each cell. -/
def Obligations.LbpBorderIsZero : Prop :=
  ∀ (w h : Nat) (gray : Nat → Byte), (lbpFn w h gray).length = w * h ∧
    ∀ x < w, ∀ y < h, x = 0 ∨ x = w - 1 ∨ y = 0 ∨ y = h - 1 → (lbpFn w h gray)[y * w + x]? = some 0

/-- R138: if a dimension is below 3 every output byte is 0. -/
def Obligations.LbpDegenerateSizesAreZero : Prop :=
  ∀ (w h : Nat) (gray : Nat → Byte), w < 3 ∨ h < 3 → lbpFn w h gray = List.replicate (w * h) 0

/-- R139: an output cell depends only on the 3 by 3 neighbourhood of its input cell inside the image. -/
def Obligations.LbpCellsAreLocal : Prop :=
  ∀ (w h x y : Nat) (gray gray' : Nat → Byte), x < w → y < h →
    (∀ x' y', x' < w → y' < h → x' ≤ x + 1 → x ≤ x' + 1 → y' ≤ y + 1 → y ≤ y' + 1 →
      gray (y' * w + x') = gray' (y' * w + x')) →
    (lbpFn w h gray)[y * w + x]? = (lbpFn w h gray')[y * w + x]?

/-! ### Registers, memories and Reset -/

/-- R26: the fields of the STATUS word, its reserved bits, and that reading it clears nothing and writing it is ignored. -/
def Obligations.StatusRegister : Prop :=
  (∀ st : Status, st.word.extractLsb' 0 2 = st.state.code ∧ st.word.extractLsb' 2 2 = 0 ∧
    st.word.extractLsb' 4 4 = st.err ∧ st.word.extractLsb' 8 2 = st.op ∧ st.word.extractLsb' 10 22 = 0) ∧
  RunState.idle.code = 0 ∧ RunState.busy.code = 1 ∧ RunState.done.code = 2 ∧ RunState.error.code = 3 ∧
  (∀ s : State, perform (.regRead 0x04) s = .next { s with replies := s.replies ++ [.word s.status.word] }) ∧
  (∀ (s : State) (v : Word), perform (.regWrite 0x04 v) s = .next s)

/-- 95 V12, 93 U10: the thirteen STATUS words of the table; "No other STATUS value can ever be read". -/
def Obligations.OnlyTheseStatusWords : Prop :=
  ∀ s : State, s.Inv → s.status.word ∈ ([0x00000000, 0x00000101, 0x00000201, 0x00000301, 0x00000102, 0x00000202,
    0x00000302, 0x00000123, 0x00000223, 0x00000323, 0x00000133, 0x00000233, 0x00000333] : List Word)

/-- R22, R25, R30 to R33: what reading each register returns, which changes nothing but what the host has read; WIDTH, HEIGHT
and LEN take every value written, and OUTLEN ignores it. -/
def Obligations.RegisterAccesses : Prop :=
  ∀ (s : State) (v : Word),
    perform (.regRead 0x00) s = .next { s with replies := s.replies ++ [.word 0] } ∧
    perform (.regRead 0x08) s = .next { s with replies := s.replies ++ [.word s.width] } ∧
    perform (.regRead 0x0C) s = .next { s with replies := s.replies ++ [.word s.height] } ∧
    perform (.regRead 0x10) s = .next { s with replies := s.replies ++ [.word s.len] } ∧
    perform (.regRead 0x14) s = .next { s with replies := s.replies ++ [.word s.outlen] } ∧
    perform (.regWrite 0x08 v) s = .next { s with width := v } ∧
    perform (.regWrite 0x0C v) s = .next { s with height := v } ∧
    perform (.regWrite 0x10 v) s = .next { s with len := v } ∧
    perform (.regWrite 0x14 v) s = .next s

/-- R22, 93 U4: an access at an offset that is 0x18 or above or not a multiple of 4 is refused, and only such an access is
refused for want of a register. -/
def Obligations.RegisterAccessOutsideTheMapIsRefused : Prop :=
  ∀ (off : Nat) (s : State),
    (0x18 ≤ off ∨ off % 4 ≠ 0 →
      perform (.regRead off) s = .refused .noSuchRegister ∧
      ∀ v, perform (.regWrite off v) s = .refused .noSuchRegister) ∧
    (off < 0x18 → off % 4 = 0 →
      (∃ t, perform (.regRead off) s = .next t) ∧ ∀ v, perform (.regWrite off v) s ≠ .refused .noSuchRegister)

/-- R40, R50: a byte that the host writes to PIX or GRAY is what the cell holds, and every other cell of every memory, every
register and the host's side are as before; a write to LBPM changes nothing. -/
def Obligations.HostMemoryWrites : Prop :=
  (∀ (s : State) (sp : Space) (idx : Nat) (b : Byte), sp ≠ .lbpm → idx < capacity s.params sp →
    ∃ t, perform (.memWrite8 sp idx b) s = .next t ∧ t.cell sp idx = some b ∧
      (∀ sp' i, sp' ≠ sp ∨ i ≠ idx → t.cell sp' i = s.cell sp' i) ∧
      t.status = s.status ∧ t.outlen = s.outlen ∧ DescriptorSame s t ∧ HostSideSame s t) ∧
  (∀ (s : State) (idx : Nat) (b : Byte), idx < capacity s.params .lbpm →
    perform (.memWrite8 .lbpm idx b) s = .next s)

/-- R58, R221: a host read of a cell returns its byte, or the free value of an unwritten one, and changes nothing else. The
statement holds for every free value. -/
def Obligations.HostMemoryReads : Prop :=
  ∀ (s : State) (sp : Space) (idx : Nat), idx < capacity s.params sp →
    (∀ b, s.cell sp idx = some b →
      perform (.memRead8 sp idx) s = .next { s with replies := s.replies ++ [.byte b] }) ∧
    (s.cell sp idx = none → perform (.memRead8 sp idx) s =
      .next { s with replies := s.replies ++ [.byte (Config.unwrittenByte s.resets sp idx)] })

/-- R50, 93 U5: an access at an index outside the memory is refused. -/
def Obligations.MemoryAccessOutsideTheSpaceIsRefused : Prop :=
  ∀ (s : State) (sp : Space) (idx : Nat) (b : Byte), capacity s.params sp ≤ idx →
    perform (.memRead8 sp idx) s = .refused .noSuchCell ∧ perform (.memWrite8 sp idx b) s = .refused .noSuchCell

/-- R220, R39, R221: Reset at any time, BUSY included and while an action is held, is taken at once: the registers are 0, the
command in progress is gone, every cell is unwritten; the action that was held is dropped or kept, whichever. -/
def Obligations.ResetIsNeverHeld : Prop :=
  (∀ s : State, ∃ t, perform .reset s = .next t ∧ t.status = ⟨.idle, 0, 0⟩ ∧ t.width = 0 ∧ t.height = 0 ∧ t.len = 0 ∧
    t.outlen = 0 ∧ (∀ sp i, t.cell sp i = none) ∧ (t.held = none ∨ t.held = s.held) ∧ t.params = s.params ∧
    t.inbox = s.inbox ∧ t.replies = s.replies) ∧
  (∀ (s : State) (rest : List Event), s.inbox = .host .reset :: rest → s.status.state = .busy ∨ s.held = none →
    step s = perform .reset { s with inbox := rest })

/-- R39: the state right after Reset. -/
def Obligations.StateAfterReset : Prop :=
  State.reset.status.word = 0 ∧ State.reset.status = ⟨.idle, 0, 0⟩ ∧ State.reset.width = 0 ∧ State.reset.height = 0 ∧
  State.reset.len = 0 ∧ State.reset.outlen = 0 ∧ (∀ sp i, State.reset.cell sp i = none) ∧
  perform (.regRead 0x00) State.reset = .next { State.reset with replies := State.reset.replies ++ [.word 0] }

/-- R223: a command other than CLR issued straight after Reset ends in ERROR with INVALID_DIMENSIONS. That no other action
is to come at reset is the model's choice (log 12). -/
def Obligations.CommandStraightAfterReset : Prop :=
  ∀ (i : Instr) (o : FrameOperands), frameOperands i = some o →
    ∃ t, runProgram [.command i] State.reset = .next t ∧ t.status = ⟨.error, 3, i.op⟩ ∧ t.outlen = 0

/-- R88: the action of every line of the host notation; and R89's FRAME, LOAD and DUMP. R88 gives MW, and so LOAD, for PIX and
GRAY; that the line says the same of LBPM, and that a LOAD may have no byte, is the model's choice (log 19). -/
def Obligations.HostLinesAreTheseActions : Prop :=
  (∀ v, lineActions (.wr .width v) = [.regWrite 0x08 v] ∧ lineActions (.wr .height v) = [.regWrite 0x0C v] ∧
    lineActions (.wr .len v) = [.regWrite 0x10 v] ∧ lineActions (.wr .ctrl v) = [.regWrite 0x00 v] ∧
    lineActions (.wr .status v) = [.regWrite 0x04 v] ∧ lineActions (.wr .outlen v) = [.regWrite 0x14 v]) ∧
  lineActions (.rd .ctrl) = [.regRead 0x00] ∧ lineActions (.rd .status) = [.regRead 0x04] ∧
  lineActions (.rd .width) = [.regRead 0x08] ∧ lineActions (.rd .height) = [.regRead 0x0C] ∧
  lineActions (.rd .len) = [.regRead 0x10] ∧ lineActions (.rd .outlen) = [.regRead 0x14] ∧
  (∀ sp idx b, lineActions (.mw sp idx b) = [.memWrite8 sp idx b] ∧ lineActions (.mr sp idx) = [.memRead8 sp idx]) ∧
  lineActions (.command .clr) = [.regWrite 0x00 0x00000000] ∧
  lineActions (.command .gray) = [.regWrite 0x00 0x00000001] ∧
  lineActions (.command .lbp) = [.regWrite 0x00 0x00000002] ∧
  lineActions (.command .proc) = [.regWrite 0x00 0x00000003] ∧
  lineActions .reset = [.reset] ∧
  (∀ w h n, lineActions (.frame w h n) =
    lineActions (.wr .width w) ++ lineActions (.wr .height h) ++ lineActions (.wr .len n)) ∧
  (∀ (sp : Space) (bytes : List Byte) (i : Nat),
    (lineActions (.load sp bytes))[i]? = bytes[i]?.map fun b => .memWrite8 sp i b) ∧
  (∀ (sp : Space) (n : Nat), lineActions (.dump sp n) = (List.range n).map fun i => .memRead8 sp i)

/-! ### The whole machine -/

/-- R39: the state after Reset meets the invariant. -/
def Obligations.ResetMeetsTheInvariant : Prop := State.reset.Inv

/-- R28, R33, R50, R194: every step keeps the invariant: the memories stay canonical and inside their spaces, ERR is 0, 2 or
3 and is not 0 exactly in ERROR, OP is 0 exactly in IDLE, OUTLEN is 0 outside DONE, and in DONE the whole result is in its
memory. -/
def Obligations.StepKeepsTheInvariant : Prop :=
  ∀ s t : State, s.Inv → step s = .next t → t.Inv

/-- R190, R151: from a state that meets the invariant no step faults: the engine's turn always finds its command. -/
def Obligations.NoStepFaults : Prop :=
  ∀ (s : State) (f : Fault), s.Inv → step s ≠ .fault f

/-- R202, 93 U1, U4, U5: the only steps that are refused are a command issued with LEN above the capacity of its source
memory, a register access outside the map, and a memory access outside its space. -/
def Obligations.OnlyUndefinedActionsAreRefused : Prop :=
  ∀ (s : State) (r : Refusal), s.Inv → step s = .refused r →
    ∃ a, s.nextMove.1 = .host a ∧
      ((r = .lenAboveCapacity ∧ ∃ v o, a = .regWrite 0x00 v ∧ frameOperands (decode v) = some o ∧
          capacity s.params o.source < s.len.toNat) ∨
        (r = .noSuchRegister ∧ ∃ off, (a = .regRead off ∨ ∃ v, a = .regWrite off v) ∧ (0x18 ≤ off ∨ off % 4 ≠ 0)) ∨
        (r = .noSuchCell ∧ ∃ sp idx, (a = .memRead8 sp idx ∨ ∃ b, a = .memWrite8 sp idx b) ∧
          capacity s.params sp ≤ idx))

/-- R40, R140, R55: what a command may write: no command writes PIX, the descriptor or the parameters; CLR writes no memory,
GRAY not LBPM, LBP not GRAY; and no byte at or above `W * H` changes. -/
def Obligations.CommandsWriteOnlyTheirResults : Prop :=
  ∀ (i : Instr) (s t : State), exec i s = .next t →
    CellsSame .pix s t ∧ DescriptorSame s t ∧ t.params = s.params ∧ t.inbox = s.inbox ∧ t.replies = s.replies ∧
    t.resets = s.resets ∧
    (i = .clr ∨ i = .lbp → CellsSame .gray s t) ∧ (i = .clr ∨ i = .gray → CellsSame .lbpm s t) ∧
    (∀ sp p, s.area ≤ p → t.cell sp p = s.cell sp p) ∧
    (t.status.state ≠ .done → ∀ sp, CellsSame sp s t)

/-- R40: LBPM changes only by a completion step of LBP or PROC that ends DONE, and by Reset, over every step of every
state. -/
def Obligations.OnlyCompletionAndResetChangeLbpm : Prop :=
  ∀ s t : State, step s = .next t → t.lbpm ≠ s.lbpm →
    s.nextMove.1 = .host .reset ∨
    (s.nextMove.1 = .engine ∧ s.status.state = .busy ∧ (s.status.op = 2 ∨ s.status.op = 3) ∧ t.status.state = .done)

/-- R159: from DONE, a step that is no CTRL write, no Reset and no host write to the result's own memory leaves the result
bytes, OUTLEN and STATUS as they are. -/
def Obligations.ResultLivesOn : Prop :=
  ∀ s t : State, s.status.state = .done → step s = .next t →
    s.nextMove.1 ≠ .host .reset → (∀ v, s.nextMove.1 ≠ .host (.regWrite 0x00 v)) →
    (∀ idx b, s.nextMove.1 ≠ .host (.memWrite8 (resultSpace s.status.op) idx b)) →
    CellsSame (resultSpace s.status.op) s t ∧ t.outlen = s.outlen ∧ t.status = s.status

/-- R38: non-interference: the outcome of a command in progress (STATUS, OUTLEN, and on success the destination bytes) is
the same from any two states that agree on the command, WIDTH, HEIGHT, LEN, the first LEN source bytes and the parameters,
whatever else they hold. -/
def Obligations.OutcomeDependsOnlyOnTheFrame : Prop :=
  ∀ (i : Instr) (o : FrameOperands) (s s' : State), frameOperands i = some o →
    s.status.state = .busy → s'.status.state = .busy → s.status.op = i.op → s'.status.op = i.op →
    s'.params = s.params → DescriptorSame s s' → s.len.toNat ≤ capacity s.params o.source →
    (∀ j < s.len.toNat, s'.byteAt o.source j = s.byteAt o.source j) →
    ∃ t t', exec i s = .next t ∧ exec i s' = .next t' ∧ t'.status = t.status ∧ t'.outlen = t.outlen ∧
      (t.status.state = .done → ∀ p < s.area, t'.cell o.result p = t.cell o.result p ∧
        (i = .proc → t'.cell .gray p = t.cell .gray p))

/-- R58, R157: a command that is run again with the registers and source bytes unchanged leaves the very state that it left
the first time. -/
def Obligations.CommandsAreIdempotent : Prop :=
  ∀ (i : Instr) (s t : State), s.Inv → s.Between → runProgram [.command i] s = .next t →
    runProgram [.command i] t = .next t

/-- R156: PROC is GRAY followed by LBP. On a frame that passes the check, `GRAY ; WR LEN, W*H ; LBP` and `PROC` leave GRAY
and LBPM byte for byte alike and the same OUTLEN, and differ only in LEN and STATUS.OP; on one that fails it, GRAY and PROC
fail with the same code. -/
def Obligations.ProcIsGrayThenLbp : Prop :=
  ∀ s : State, s.Inv → s.Between → s.status.state ≠ .busy → s.len.toNat ≤ 4 * s.params.maxPix →
    (s.len.toNat = 4 * s.area → 1 ≤ s.width.toNat → 1 ≤ s.height.toNat →
      ∃ a b, runProgram [.command .gray, .wr .len (BitVec.ofNat 32 s.area), .command .lbp] s = .next a ∧
        runProgram [.command .proc] s = .next b ∧
        CellsSame .pix a b ∧ CellsSame .gray a b ∧ CellsSame .lbpm a b ∧
        a.status = ⟨.done, 0, 2⟩ ∧ b.status = ⟨.done, 0, 3⟩ ∧ a.outlen = b.outlen ∧ a.len.toNat = s.area ∧
        b.len = s.len ∧ a.width = b.width ∧ a.height = b.height ∧ HostSideSame a b) ∧
    (s.len.toNat ≠ 4 * s.area ∨ s.width.toNat = 0 ∨ s.height.toNat = 0 →
      ∃ a b, runProgram [.command .gray] s = .next a ∧ runProgram [.command .proc] s = .next b ∧
        a.status.state = .error ∧ b.status.state = .error ∧ a.status.err = b.status.err)

/-! ### The host's codec and driver -/

/-- R174: RefCodec's decoder fails exactly when the header is truncated or the payload is not of the length the header gives,
and what it accepts is the encoding of what it answers. -/
def Obligations.RefCodecAcceptsExactlyEncodings : Prop :=
  (∀ bytes, refDecode bytes = none ↔
    bytes.length < 12 ∨
      bytes.length ≠ 12 + fromLe32 (bytes.getD 8 0) (bytes.getD 9 0) (bytes.getD 10 0) (bytes.getD 11 0)) ∧
  (∀ bytes m, refDecode bytes = some m → refEncode m = bytes ∧ m.buf.length < 2 ^ 32) ∧
  (∀ m m', m.buf.length < 2 ^ 32 → m'.buf.length < 2 ^ 32 → refEncode m = refEncode m' → m = m')

/-- R177: `process` on this block, from any state between calls, whatever the block holds and however often the host sees
BUSY (log 16): the schema error of the codec; else the dimension errors in their order; else the encoding of the LBP image of
the gray image of the request, with the request's width and height. It leaves the block ready for the next call. -/
def Obligations.ProcessEqualsThePipeline : Prop :=
  ∀ (c : Codec) (busyReads : Nat) (bytes : List Byte) (s : State), s.Inv → s.Between →
    (c.decode bytes = none → process c busyReads bytes s = (.err .schemaDecode, s)) ∧
    (∀ m, c.decode bytes = some m → m.buf.length ≤ 4 * s.params.maxPix →
      (process c busyReads bytes s).1 =
        (if m.buf.length ≠ m.width.toNat * m.height.toNat * 4 then .err .dimensionMismatch
        else if m.width.toNat = 0 ∨ m.height.toNat = 0 then .err .invalidDimensions
        else .ok (c.encode
          { width := m.width, height := m.height
            buf := lbpFn m.width.toNat m.height.toNat fun p =>
              (grayFn s.params.luma m.width.toNat m.height.toNat fun j => m.buf.getD j 0).getD p 0 })) ∧
      (process c busyReads bytes s).2.Inv ∧ (process c busyReads bytes s).2.Between)

/-! ### Lines that wait, and Messages -/

/-- R89: a WAIT reads STATUS until the value read is not BUSY, and the last value read is the result. On a block that is not
BUSY it reads once. On a BUSY block it reads BUSY as often as the environment lets it, then the STATUS that the command in
progress leaves; the state is then the one that the command leaves, but for the replies. How many reads return BUSY is the
environment's choice, which the model names in the WAIT line (log 5). -/
def Obligations.WaitStopsAtTheFirstReadThatIsNotBusy : Prop :=
  ∀ (n : Nat) (s : State), s.Between →
    (s.status.state ≠ .busy →
      runLine (.wait n) s = .next { s with replies := s.replies ++ [.word s.status.word] }) ∧
    (s.Inv → s.status.state = .busy → ∃ c, step s = .next c ∧ c.status.state ≠ .busy ∧ c.replies = s.replies ∧
      runLine (.wait n) s =
        .next { c with replies := s.replies ++ List.replicate n (.word s.status.word) ++ [.word c.status.word] })

/-- R87: how a Message maps onto the block, for each of GRAY, LBP and PROC: its lines leave `WIDTH = width`, `HEIGHT = height`,
`LEN = len(buf)`, and `source[i] = buf[i]`; on a block that is not BUSY nothing else changes. From a BUSY block the command in
progress completes first. -/
def Obligations.MessageMapsOntoTheBlock : Prop :=
  ∀ (i : Instr) (o : FrameOperands) (m : Message) (s : State), frameOperands i = some o → s.Inv → s.Between →
    m.buf.length ≤ capacity s.params o.source →
    ∃ t, runProgram (presentLines o.source m) s = .next t ∧ t.Inv ∧ t.Between ∧ t.status.state ≠ .busy ∧
      t.width = m.width ∧ t.height = m.height ∧ t.len.toNat = m.buf.length ∧
      (∀ k < m.buf.length, t.cell o.source k = m.buf[k]?) ∧ t.params = s.params ∧
      (s.status.state ≠ .busy → t.status = s.status ∧ t.outlen = s.outlen ∧ HostSideSame s t ∧
        ∀ sp k, sp ≠ o.source ∨ m.buf.length ≤ k → t.cell sp k = s.cell sp k)

/-- R87, R193: one command on one Message, for each of GRAY, LBP and PROC, from any state between calls and however many
STATUS reads return BUSY (log 16): the dimension errors in their order, else the Message with the request's width and height
and the command's image of its buffer; that Message is the width, the height and the first OUTLEN bytes of the result memory
that the command has left. A Message longer than the source memory, one that cannot be presented among them, is turned away
with the block untouched. -/
def Obligations.CommandOnAMessage : Prop :=
  ∀ (i : Instr) (o : FrameOperands) (busyReads : Nat) (m : Message) (s : State), frameOperands i = some o →
    (s.Inv → s.Between → m.buf.length ≤ capacity s.params o.source →
      (callCommand i busyReads m s).1 =
        (if m.buf.length ≠ m.width.toNat * m.height.toNat * o.arity then .err .dimensionMismatch
        else if m.width.toNat = 0 ∨ m.height.toNat = 0 then .err .invalidDimensions
        else .ok { width := m.width, height := m.height, buf := resultImage i s.params.luma m }) ∧
      (∀ r, (callCommand i busyReads m s).1 = .ok r → (callCommand i busyReads m s).2.response = some r) ∧
      (callCommand i busyReads m s).2.Inv ∧ (callCommand i busyReads m s).2.Between) ∧
    (capacity s.params o.source < m.buf.length ∨ m.presentable = false → callCommand i busyReads m s = (.noResult, s))

/-- R89: from any state, whatever is to come or held before it, a WAIT that runs to its end ends on the STATUS of a block that is
not BUSY: that is its last read, and every read of its own before that returned BUSY. What is to come before it takes place
first; if the block is then not BUSY the WAIT reads once, else as many reads return BUSY as its line names, which is the
environment's choice (log 5). -/
def Obligations.WaitEndsOnAReadThatIsNotBusy : Prop :=
  ∀ (n : Nat) (s t : State), runLine (.wait n) s = .next t →
    t.Between ∧ t.status.state ≠ .busy ∧ t.lastReadBusy = false ∧
    ∃ u, drain s = .next u ∧ u.Between ∧
      (u.status.state ≠ .busy → t = { u with replies := u.replies ++ [.word u.status.word] }) ∧
      (u.status.state = .busy → t.replies = u.replies ++ List.replicate n (.word u.status.word) ++ [.word t.status.word])
end

