-- ==== Sys2Proof/Laws/Memory.lean ====
section
/-! SUPPORT. The memory operations: what is read after a write, and that every one keeps the canonical form. -/

namespace Sys2Proof.Machine

theorem read_write_same (m : Memory) (i : Nat) (b : Byte) : Memory.read (Memory.write m i b) i = some b := by
  induction m with
  | nil => simp [Memory.write, Memory.read]
  | cons c m ih =>
    obtain ⟨j, x⟩ := c
    simp only [Memory.write]
    split
    · simp [Memory.read]
    · split
      · simp [Memory.read]
      · next h => simp [Memory.read, h, ih]

theorem read_write_of_ne (m : Memory) {i k : Nat} (b : Byte) (h : k ≠ i) :
    Memory.read (Memory.write m i b) k = Memory.read m k := by
  induction m with
  | nil => simp [Memory.write, Memory.read, h]
  | cons c m ih =>
    obtain ⟨j, x⟩ := c
    simp only [Memory.write]
    split
    · simp [Memory.read, h]
    · split
      · next hij => subst hij; simp [Memory.read, h]
      · simp [Memory.read, ih]

/-- The indices a write leaves listed. -/
theorem mem_write {m : Memory} {i : Nat} {b : Byte} {c : Host.Cell} (h : c ∈ Memory.write m i b) :
    c = (i, b) ∨ c ∈ m := by
  induction m with
  | nil => simpa [Memory.write] using h
  | cons d m ih =>
    obtain ⟨j, x⟩ := d
    simp only [Memory.write] at h
    split at h
    · simpa using h
    · split at h
      · rcases List.mem_cons.mp h with h | h
        · exact .inl h
        · exact .inr (List.mem_cons_of_mem _ h)
      · rcases List.mem_cons.mp h with h | h
        · exact .inr (h ▸ List.mem_cons_self)
        · exact (ih h).imp_right (List.mem_cons_of_mem _)

/-- A write keeps the canonical form. -/
theorem write_wf {m : Memory} (i : Nat) (b : Byte) (h : Memory.wf m) : Memory.wf (Memory.write m i b) := by
  induction m with
  | nil => simp [Memory.write]
  | cons d m ih =>
    obtain ⟨j, x⟩ := d
    obtain ⟨hj, hm⟩ := List.pairwise_cons.mp h
    simp only [Memory.write]
    split
    · next hij =>
      refine List.pairwise_cons.mpr ⟨fun c hc => ?_, h⟩
      rcases List.mem_cons.mp hc with rfl | hc
      · exact hij
      · exact Nat.lt_trans hij (hj c hc)
    · split
      · next hij => subst hij; exact List.pairwise_cons.mpr ⟨hj, hm⟩
      · next h1 h2 =>
        refine List.pairwise_cons.mpr ⟨fun c hc => ?_, ih hm⟩
        rcases mem_write hc with rfl | hc
        · simp only; omega
        · exact hj c hc

/-- A write inside a memory keeps every listed cell inside it. -/
theorem write_within {m : Memory} {i n : Nat} (b : Byte) (hi : i < n) (h : Memory.within m n) :
    Memory.within (Memory.write m i b) n := by
  intro c hc
  rcases mem_write hc with rfl | hc
  · exact hi
  · exact h c hc

theorem read_writeRun (m : Memory) (i k : Nat) (bs : List Byte) :
    Memory.read (Memory.writeRun m i bs) k =
      if i ≤ k ∧ k < i + bs.length then bs[k - i]? else Memory.read m k := by
  induction bs generalizing m i with
  | nil => simp [Memory.writeRun]
  | cons b bs ih =>
    rw [Memory.writeRun, ih]
    by_cases h1 : i + 1 ≤ k ∧ k < i + 1 + bs.length
    · rw [if_pos h1, if_pos ⟨by omega, by simp; omega⟩]
      obtain ⟨d, rfl⟩ : ∃ d, k = i + 1 + d := ⟨k - (i + 1), by omega⟩
      rw [show i + 1 + d - i = d + 1 by omega, show i + 1 + d - (i + 1) = d by omega, List.getElem?_cons_succ]
    · rw [if_neg h1]
      by_cases h2 : k = i
      · subst h2
        rw [read_write_same, if_pos ⟨Nat.le_refl _, by simp⟩]
        simp
      · rw [read_write_of_ne _ _ h2, if_neg (by simp only [List.length_cons]; omega)]

/-- A run written from index 0: below its length its own bytes, above it the old cells. -/
theorem read_writeRun_zero (m : Memory) (k : Nat) (bs : List Byte) :
    Memory.read (Memory.writeRun m 0 bs) k = if k < bs.length then bs[k]? else Memory.read m k := by
  simp [read_writeRun]

theorem writeRun_wf {m : Memory} (i : Nat) (bs : List Byte) (h : Memory.wf m) :
    Memory.wf (Memory.writeRun m i bs) := by
  induction bs generalizing m i with
  | nil => exact h
  | cons b bs ih => exact ih _ (write_wf _ _ h)

theorem writeRun_within {m : Memory} {i n : Nat} {bs : List Byte} (hi : i + bs.length ≤ n) (h : Memory.within m n) :
    Memory.within (Memory.writeRun m i bs) n := by
  induction bs generalizing m i with
  | nil => exact h
  | cons b bs ih =>
    simp only [List.length_cons] at hi
    exact ih (by omega) (write_within _ (by omega) h)

/-- Every listed index is found by reading it. -/
theorem read_of_mem {m : Memory} (h : Memory.wf m) {c : Host.Cell} (hc : c ∈ m) : Memory.read m c.1 = some c.2 := by
  induction m with
  | nil => simp at hc
  | cons d m ih =>
    obtain ⟨j, x⟩ := d
    obtain ⟨hj, hm⟩ := List.pairwise_cons.mp h
    rcases List.mem_cons.mp hc with rfl | hc
    · simp [Memory.read]
    · have := hj c hc
      simp only [Memory.read]
      rw [if_neg (by simp only at this; omega)]
      exact ih hm hc

theorem read_eq_none_of_lt {m : Memory} {i : Nat} (h : ∀ c ∈ m, i < c.1) : Memory.read m i = none := by
  induction m with
  | nil => rfl
  | cons d m ih =>
    obtain ⟨j, x⟩ := d
    have := h (j, x) List.mem_cons_self
    simp only [Memory.read]
    rw [if_neg (by simp only at this; omega)]
    exact ih fun c hc => h c (List.mem_cons_of_mem _ hc)

/-- The form is canonical: memories that read alike are equal lists. -/
theorem eq_of_read_eq {m m' : Memory} (h : Memory.wf m) (h' : Memory.wf m')
    (he : ∀ i, Memory.read m i = Memory.read m' i) : m = m' := by
  induction m generalizing m' with
  | nil =>
    cases m' with
    | nil => rfl
    | cons d m' => have := he d.1; simp [Memory.read] at this
  | cons d m ih =>
    obtain ⟨j, x⟩ := d
    obtain ⟨hj, hm⟩ := List.pairwise_cons.mp h
    cases m' with
    | nil => have := he j; simp [Memory.read] at this
    | cons d' m' =>
      obtain ⟨j', x'⟩ := d'
      obtain ⟨hj', hm'⟩ := List.pairwise_cons.mp h'
      have hlt : ∀ {a b : Nat} {y z : Byte} {l l' : Memory}, (∀ c ∈ l', b < c.1) →
          Memory.read ((a, y) :: l) a = Memory.read ((b, z) :: l') a → b ≤ a := by
        intro a b y z l l' hl hr
        by_contra hab
        rw [read_eq_none_of_lt (m := (b, z) :: l')] at hr
        · simp [Memory.read] at hr
        · intro c hc
          rcases List.mem_cons.mp hc with rfl | hc
          · simp only; omega
          · have := hl c hc; omega
      have h1 : j' ≤ j := hlt hj' (he j)
      have h2 : j ≤ j' := hlt hj (he j').symm
      obtain rfl : j = j' := Nat.le_antisymm h2 h1
      have hx := he j
      simp only [Memory.read, if_pos, Option.some.injEq] at hx
      subst hx
      rw [ih hm hm' fun i => ?_]
      by_cases hi : i = j
      · subst hi
        rw [read_eq_none_of_lt hj, read_eq_none_of_lt hj']
      · simpa [Memory.read, hi] using he i

end Sys2Proof.Machine
end

