-- ==== Sys2Proof/Laws/State.lean ====
section
/-! SUPPORT. One lemma per field per update of the state, so that no proof unfolds an update. -/

namespace Sys2Proof.Machine

variable (s : State)


/-! ### Replacing a memory -/

@[simp] theorem setMem_status (sp : Space) (m : Memory) : (s.setMem sp m).status = s.status := by cases sp <;> rfl
@[simp] theorem setMem_width (sp : Space) (m : Memory) : (s.setMem sp m).width = s.width := by cases sp <;> rfl
@[simp] theorem setMem_height (sp : Space) (m : Memory) : (s.setMem sp m).height = s.height := by cases sp <;> rfl
@[simp] theorem setMem_len (sp : Space) (m : Memory) : (s.setMem sp m).len = s.len := by cases sp <;> rfl
@[simp] theorem setMem_outlen (sp : Space) (m : Memory) : (s.setMem sp m).outlen = s.outlen := by cases sp <;> rfl
@[simp] theorem setMem_params (sp : Space) (m : Memory) : (s.setMem sp m).params = s.params := by cases sp <;> rfl
@[simp] theorem setMem_inbox (sp : Space) (m : Memory) : (s.setMem sp m).inbox = s.inbox := by cases sp <;> rfl
@[simp] theorem setMem_held (sp : Space) (m : Memory) : (s.setMem sp m).held = s.held := by cases sp <;> rfl
@[simp] theorem setMem_replies (sp : Space) (m : Memory) : (s.setMem sp m).replies = s.replies := by cases sp <;> rfl
@[simp] theorem setMem_resets (sp : Space) (m : Memory) : (s.setMem sp m).resets = s.resets := by cases sp <;> rfl

/-! ### Writing a byte -/

@[simp] theorem writeByte_status (sp : Space) (i : Nat) (b : Byte) : (s.writeByte sp i b).status = s.status := by cases sp <;> rfl
@[simp] theorem writeByte_width (sp : Space) (i : Nat) (b : Byte) : (s.writeByte sp i b).width = s.width := by cases sp <;> rfl
@[simp] theorem writeByte_height (sp : Space) (i : Nat) (b : Byte) : (s.writeByte sp i b).height = s.height := by cases sp <;> rfl
@[simp] theorem writeByte_len (sp : Space) (i : Nat) (b : Byte) : (s.writeByte sp i b).len = s.len := by cases sp <;> rfl
@[simp] theorem writeByte_outlen (sp : Space) (i : Nat) (b : Byte) : (s.writeByte sp i b).outlen = s.outlen := by cases sp <;> rfl
@[simp] theorem writeByte_params (sp : Space) (i : Nat) (b : Byte) : (s.writeByte sp i b).params = s.params := by cases sp <;> rfl
@[simp] theorem writeByte_inbox (sp : Space) (i : Nat) (b : Byte) : (s.writeByte sp i b).inbox = s.inbox := by cases sp <;> rfl
@[simp] theorem writeByte_held (sp : Space) (i : Nat) (b : Byte) : (s.writeByte sp i b).held = s.held := by cases sp <;> rfl
@[simp] theorem writeByte_replies (sp : Space) (i : Nat) (b : Byte) : (s.writeByte sp i b).replies = s.replies := by cases sp <;> rfl
@[simp] theorem writeByte_resets (sp : Space) (i : Nat) (b : Byte) : (s.writeByte sp i b).resets = s.resets := by cases sp <;> rfl

/-! ### Storing a buffer -/

@[simp] theorem storeBuffer_status (sp : Space) (bs : List Byte) : (s.storeBuffer sp bs).status = s.status := by cases sp <;> rfl
@[simp] theorem storeBuffer_width (sp : Space) (bs : List Byte) : (s.storeBuffer sp bs).width = s.width := by cases sp <;> rfl
@[simp] theorem storeBuffer_height (sp : Space) (bs : List Byte) : (s.storeBuffer sp bs).height = s.height := by cases sp <;> rfl
@[simp] theorem storeBuffer_len (sp : Space) (bs : List Byte) : (s.storeBuffer sp bs).len = s.len := by cases sp <;> rfl
@[simp] theorem storeBuffer_outlen (sp : Space) (bs : List Byte) : (s.storeBuffer sp bs).outlen = s.outlen := by cases sp <;> rfl
@[simp] theorem storeBuffer_params (sp : Space) (bs : List Byte) : (s.storeBuffer sp bs).params = s.params := by cases sp <;> rfl
@[simp] theorem storeBuffer_inbox (sp : Space) (bs : List Byte) : (s.storeBuffer sp bs).inbox = s.inbox := by cases sp <;> rfl
@[simp] theorem storeBuffer_held (sp : Space) (bs : List Byte) : (s.storeBuffer sp bs).held = s.held := by cases sp <;> rfl
@[simp] theorem storeBuffer_replies (sp : Space) (bs : List Byte) : (s.storeBuffer sp bs).replies = s.replies := by cases sp <;> rfl
@[simp] theorem storeBuffer_resets (sp : Space) (bs : List Byte) : (s.storeBuffer sp bs).resets = s.resets := by cases sp <;> rfl

/-! ### Replying -/

@[simp] theorem reply_status (r : Reply) : (s.reply r).status = s.status := rfl
@[simp] theorem reply_width (r : Reply) : (s.reply r).width = s.width := rfl
@[simp] theorem reply_height (r : Reply) : (s.reply r).height = s.height := rfl
@[simp] theorem reply_len (r : Reply) : (s.reply r).len = s.len := rfl
@[simp] theorem reply_outlen (r : Reply) : (s.reply r).outlen = s.outlen := rfl
@[simp] theorem reply_pix (r : Reply) : (s.reply r).pix = s.pix := rfl
@[simp] theorem reply_gray (r : Reply) : (s.reply r).gray = s.gray := rfl
@[simp] theorem reply_lbpm (r : Reply) : (s.reply r).lbpm = s.lbpm := rfl
@[simp] theorem reply_params (r : Reply) : (s.reply r).params = s.params := rfl
@[simp] theorem reply_inbox (r : Reply) : (s.reply r).inbox = s.inbox := rfl
@[simp] theorem reply_held (r : Reply) : (s.reply r).held = s.held := rfl
@[simp] theorem reply_replies (r : Reply) : (s.reply r).replies = s.replies ++ [r] := rfl
@[simp] theorem reply_resets (r : Reply) : (s.reply r).resets = s.resets := rfl

/-! ### Issue -/

@[simp] theorem issue_status (i : Instr) : (s.issue i).status = statusIssued i := rfl
@[simp] theorem issue_width (i : Instr) : (s.issue i).width = s.width := rfl
@[simp] theorem issue_height (i : Instr) : (s.issue i).height = s.height := rfl
@[simp] theorem issue_len (i : Instr) : (s.issue i).len = s.len := rfl
@[simp] theorem issue_outlen (i : Instr) : (s.issue i).outlen = 0 := rfl
@[simp] theorem issue_pix (i : Instr) : (s.issue i).pix = s.pix := rfl
@[simp] theorem issue_gray (i : Instr) : (s.issue i).gray = s.gray := rfl
@[simp] theorem issue_lbpm (i : Instr) : (s.issue i).lbpm = s.lbpm := rfl
@[simp] theorem issue_params (i : Instr) : (s.issue i).params = s.params := rfl
@[simp] theorem issue_inbox (i : Instr) : (s.issue i).inbox = s.inbox := rfl
@[simp] theorem issue_held (i : Instr) : (s.issue i).held = s.held := rfl
@[simp] theorem issue_replies (i : Instr) : (s.issue i).replies = s.replies := rfl
@[simp] theorem issue_resets (i : Instr) : (s.issue i).resets = s.resets := rfl

/-! ### CLR -/

@[simp] theorem clear_status : (s.clear).status = statusCleared := rfl
@[simp] theorem clear_width : (s.clear).width = s.width := rfl
@[simp] theorem clear_height : (s.clear).height = s.height := rfl
@[simp] theorem clear_len : (s.clear).len = s.len := rfl
@[simp] theorem clear_outlen : (s.clear).outlen = 0 := rfl
@[simp] theorem clear_pix : (s.clear).pix = s.pix := rfl
@[simp] theorem clear_gray : (s.clear).gray = s.gray := rfl
@[simp] theorem clear_lbpm : (s.clear).lbpm = s.lbpm := rfl
@[simp] theorem clear_params : (s.clear).params = s.params := rfl
@[simp] theorem clear_inbox : (s.clear).inbox = s.inbox := rfl
@[simp] theorem clear_held : (s.clear).held = s.held := rfl
@[simp] theorem clear_replies : (s.clear).replies = s.replies := rfl
@[simp] theorem clear_resets : (s.clear).resets = s.resets := rfl

/-! ### Success -/

@[simp] theorem succeed_status : (s.succeed).status = s.status.succeeded := rfl
@[simp] theorem succeed_width : (s.succeed).width = s.width := rfl
@[simp] theorem succeed_height : (s.succeed).height = s.height := rfl
@[simp] theorem succeed_len : (s.succeed).len = s.len := rfl
@[simp] theorem succeed_outlen : (s.succeed).outlen = BitVec.ofNat 32 (s.width.toNat * s.height.toNat) := rfl
@[simp] theorem succeed_pix : (s.succeed).pix = s.pix := rfl
@[simp] theorem succeed_gray : (s.succeed).gray = s.gray := rfl
@[simp] theorem succeed_lbpm : (s.succeed).lbpm = s.lbpm := rfl
@[simp] theorem succeed_params : (s.succeed).params = s.params := rfl
@[simp] theorem succeed_inbox : (s.succeed).inbox = s.inbox := rfl
@[simp] theorem succeed_held : (s.succeed).held = s.held := rfl
@[simp] theorem succeed_replies : (s.succeed).replies = s.replies := rfl
@[simp] theorem succeed_resets : (s.succeed).resets = s.resets := rfl

/-! ### Error entry -/

@[simp] theorem raise_status (e : ErrorKind) : (s.raise e).status = s.status.failed e := rfl
@[simp] theorem raise_width (e : ErrorKind) : (s.raise e).width = s.width := rfl
@[simp] theorem raise_height (e : ErrorKind) : (s.raise e).height = s.height := rfl
@[simp] theorem raise_len (e : ErrorKind) : (s.raise e).len = s.len := rfl
@[simp] theorem raise_outlen (e : ErrorKind) : (s.raise e).outlen = 0 := rfl
@[simp] theorem raise_pix (e : ErrorKind) : (s.raise e).pix = s.pix := rfl
@[simp] theorem raise_gray (e : ErrorKind) : (s.raise e).gray = s.gray := rfl
@[simp] theorem raise_lbpm (e : ErrorKind) : (s.raise e).lbpm = s.lbpm := rfl
@[simp] theorem raise_params (e : ErrorKind) : (s.raise e).params = s.params := rfl
@[simp] theorem raise_inbox (e : ErrorKind) : (s.raise e).inbox = s.inbox := rfl
@[simp] theorem raise_held (e : ErrorKind) : (s.raise e).held = s.held := rfl
@[simp] theorem raise_replies (e : ErrorKind) : (s.raise e).replies = s.replies := rfl
@[simp] theorem raise_resets (e : ErrorKind) : (s.raise e).resets = s.resets := rfl

/-! ### Holding -/

@[simp] theorem hold_status (a : HostAction) : (s.hold a).status = s.status := rfl
@[simp] theorem hold_width (a : HostAction) : (s.hold a).width = s.width := rfl
@[simp] theorem hold_height (a : HostAction) : (s.hold a).height = s.height := rfl
@[simp] theorem hold_len (a : HostAction) : (s.hold a).len = s.len := rfl
@[simp] theorem hold_outlen (a : HostAction) : (s.hold a).outlen = s.outlen := rfl
@[simp] theorem hold_pix (a : HostAction) : (s.hold a).pix = s.pix := rfl
@[simp] theorem hold_gray (a : HostAction) : (s.hold a).gray = s.gray := rfl
@[simp] theorem hold_lbpm (a : HostAction) : (s.hold a).lbpm = s.lbpm := rfl
@[simp] theorem hold_params (a : HostAction) : (s.hold a).params = s.params := rfl
@[simp] theorem hold_inbox (a : HostAction) : (s.hold a).inbox = s.inbox := rfl
@[simp] theorem hold_held (a : HostAction) : (s.hold a).held = s.held.or (some a) := rfl
@[simp] theorem hold_replies (a : HostAction) : (s.hold a).replies = s.replies := rfl
@[simp] theorem hold_resets (a : HostAction) : (s.hold a).resets = s.resets := rfl

/-! ### Reset -/

@[simp] theorem resetBlock_status : (s.resetBlock).status = ⟨.idle, 0, 0⟩ := rfl
@[simp] theorem resetBlock_width : (s.resetBlock).width = 0 := rfl
@[simp] theorem resetBlock_height : (s.resetBlock).height = 0 := rfl
@[simp] theorem resetBlock_len : (s.resetBlock).len = 0 := rfl
@[simp] theorem resetBlock_outlen : (s.resetBlock).outlen = 0 := rfl
@[simp] theorem resetBlock_pix : (s.resetBlock).pix = [] := rfl
@[simp] theorem resetBlock_gray : (s.resetBlock).gray = [] := rfl
@[simp] theorem resetBlock_lbpm : (s.resetBlock).lbpm = [] := rfl
@[simp] theorem resetBlock_params : (s.resetBlock).params = s.params := rfl
@[simp] theorem resetBlock_inbox : (s.resetBlock).inbox = s.inbox := rfl
@[simp] theorem resetBlock_held : (s.resetBlock).held = if Config.heldSurvivesReset s.resets then s.held else none := rfl
@[simp] theorem resetBlock_replies : (s.resetBlock).replies = s.replies := rfl
@[simp] theorem resetBlock_resets : (s.resetBlock).resets = s.resets + 1 := rfl

/-! ### The three memories as one map -/

@[simp] theorem setMem_mem_same (sp : Space) (m : Memory) : (s.setMem sp m).mem sp = m := by cases sp <;> rfl

theorem setMem_mem_of_ne {sp sp' : Space} (m : Memory) (h : sp' ≠ sp) : (s.setMem sp m).mem sp' = s.mem sp' := by
  cases sp <;> cases sp' <;> first | rfl | exact absurd rfl h

/-- A memory is a function of its own field alone. -/
theorem mem_congr {s t : State} (hp : t.pix = s.pix) (hg : t.gray = s.gray) (hl : t.lbpm = s.lbpm) (sp : Space) :
    t.mem sp = s.mem sp := by
  cases sp <;> assumption

@[simp] theorem reply_mem (r : Reply) (sp : Space) : State.mem (s.reply r) sp = s.mem sp := by cases sp <;> rfl
@[simp] theorem issue_mem (i : Instr) (sp : Space) : State.mem (s.issue i) sp = s.mem sp := by cases sp <;> rfl
@[simp] theorem clear_mem (sp : Space) : State.mem (s.clear) sp = s.mem sp := by cases sp <;> rfl
@[simp] theorem succeed_mem (sp : Space) : State.mem (s.succeed) sp = s.mem sp := by cases sp <;> rfl
@[simp] theorem raise_mem (e : ErrorKind) (sp : Space) : State.mem (s.raise e) sp = s.mem sp := by cases sp <;> rfl
@[simp] theorem hold_mem (a : HostAction) (sp : Space) : State.mem (s.hold a) sp = s.mem sp := by cases sp <;> rfl
@[simp] theorem withInbox_mem (es : List Event) (sp : Space) : State.mem ({ s with inbox := es }) sp = s.mem sp := by cases sp <;> rfl
@[simp] theorem resetBlock_mem (sp : Space) : s.resetBlock.mem sp = [] := by cases sp <;> rfl
@[simp] theorem reply_cell (r : Reply) (sp : Space) (k : Nat) : State.cell (s.reply r) sp k = s.cell sp k := by simp only [State.cell, reply_mem]
@[simp] theorem reply_byteAt (r : Reply) (sp : Space) (k : Nat) : State.byteAt (s.reply r) sp k = s.byteAt sp k := by simp only [State.byteAt, reply_cell, reply_resets]
@[simp] theorem issue_cell (i : Instr) (sp : Space) (k : Nat) : State.cell (s.issue i) sp k = s.cell sp k := by simp only [State.cell, issue_mem]
@[simp] theorem issue_byteAt (i : Instr) (sp : Space) (k : Nat) : State.byteAt (s.issue i) sp k = s.byteAt sp k := by simp only [State.byteAt, issue_cell, issue_resets]
@[simp] theorem clear_cell (sp : Space) (k : Nat) : State.cell (s.clear) sp k = s.cell sp k := by simp only [State.cell, clear_mem]
@[simp] theorem clear_byteAt (sp : Space) (k : Nat) : State.byteAt (s.clear) sp k = s.byteAt sp k := by simp only [State.byteAt, clear_cell, clear_resets]
@[simp] theorem succeed_cell (sp : Space) (k : Nat) : State.cell (s.succeed) sp k = s.cell sp k := by simp only [State.cell, succeed_mem]
@[simp] theorem succeed_byteAt (sp : Space) (k : Nat) : State.byteAt (s.succeed) sp k = s.byteAt sp k := by simp only [State.byteAt, succeed_cell, succeed_resets]
@[simp] theorem raise_cell (e : ErrorKind) (sp : Space) (k : Nat) : State.cell (s.raise e) sp k = s.cell sp k := by simp only [State.cell, raise_mem]
@[simp] theorem raise_byteAt (e : ErrorKind) (sp : Space) (k : Nat) : State.byteAt (s.raise e) sp k = s.byteAt sp k := by simp only [State.byteAt, raise_cell, raise_resets]
@[simp] theorem hold_cell (a : HostAction) (sp : Space) (k : Nat) : State.cell (s.hold a) sp k = s.cell sp k := by simp only [State.cell, hold_mem]
@[simp] theorem hold_byteAt (a : HostAction) (sp : Space) (k : Nat) : State.byteAt (s.hold a) sp k = s.byteAt sp k := by simp only [State.byteAt, hold_cell, hold_resets]
@[simp] theorem withInbox_cell (es : List Event) (sp : Space) (k : Nat) : State.cell ({ s with inbox := es }) sp k = s.cell sp k := by simp only [State.cell, withInbox_mem]
@[simp] theorem withInbox_byteAt (es : List Event) (sp : Space) (k : Nat) : State.byteAt ({ s with inbox := es }) sp k = s.byteAt sp k := rfl
@[simp] theorem resetBlock_cell (sp : Space) (k : Nat) : s.resetBlock.cell sp k = none := by simp [State.cell, Memory.read]

/-! ### STATUS -/

@[simp] theorem statusIssued_eq (i : Instr) : statusIssued i = ⟨.busy, 0, i.op⟩ := rfl
@[simp] theorem statusCleared_eq : statusCleared = ⟨.idle, 0, 0⟩ := rfl
@[simp] theorem succeeded_eq (st : Status) : st.succeeded = ⟨.done, 0, st.op⟩ := rfl
@[simp] theorem failed_eq (st : Status) (e : ErrorKind) : st.failed e = ⟨.error, errorCode e, st.op⟩ := rfl

end Sys2Proof.Machine
end

