-- ==== Sys2Proof/Laws/Units.lean ====
section
/-! SUPPORT. The two datapath functions as buffers: lengths, bytes, and which source bytes they look at. -/

namespace Sys2Proof.Machine

@[simp] theorem grayFn_length (L : Luma) (w h : Nat) (pix : Nat → Byte) : (grayFn L w h pix).length = w * h := by
  simp [grayFn]

@[simp] theorem lbpFn_length (w h : Nat) (gray : Nat → Byte) : (lbpFn w h gray).length = w * h := by
  simp [lbpFn]

theorem grayFn_getElem? (L : Luma) {w h p : Nat} (pix : Nat → Byte) (hp : p < w * h) :
    (grayFn L w h pix)[p]? = some (pixelLuma L pix p) := by
  simp [grayFn, hp]

theorem lbpFn_getElem? {w h p : Nat} (gray : Nat → Byte) (hp : p < w * h) :
    (lbpFn w h gray)[p]? = some (lbpCell w h gray (p % w) (p / w)) := by
  simp [lbpFn, hp]

/-- The index of column `x`, row `y` is inside the frame. -/
theorem index_lt {w h x y : Nat} (hx : x < w) (hy : y < h) : y * w + x < w * h := by
  calc y * w + x < y * w + w := by omega
    _ = (y + 1) * w := by ring
    _ ≤ h * w := Nat.mul_le_mul_right _ hy
    _ = w * h := Nat.mul_comm _ _

/-- The column and the row of that index. -/
theorem index_mod {w x : Nat} (y : Nat) (hx : x < w) : (y * w + x) % w = x := by
  rw [Nat.add_comm, Nat.add_mul_mod_self_right, Nat.mod_eq_of_lt hx]

theorem index_div {w x : Nat} (y : Nat) (hx : x < w) : (y * w + x) / w = y := by
  rw [Nat.add_comm, Nat.add_mul_div_right _ _ (by omega), Nat.div_eq_of_lt hx, Nat.zero_add]

theorem lbpFn_getElem?_index {w h x y : Nat} (gray : Nat → Byte) (hx : x < w) (hy : y < h) :
    (lbpFn w h gray)[y * w + x]? = some (lbpCell w h gray x y) := by
  rw [lbpFn_getElem? gray (index_lt hx hy), index_mod y hx, index_div y hx]

/-- `gray_fn` looks only at the bytes of the frame's pixels. -/
theorem grayFn_congr (L : Luma) {w h : Nat} {pix pix' : Nat → Byte} (he : ∀ i < 4 * (w * h), pix i = pix' i) :
    grayFn L w h pix = grayFn L w h pix' := by
  refine List.map_congr_left fun p hp => ?_
  have hp : p < w * h := List.mem_range.mp hp
  simp only [pixelLuma, he (4 * p) (by omega), he (4 * p + 1) (by omega), he (4 * p + 2) (by omega)]

/-- A cell's output looks only at the image's cells around it. -/
theorem lbpCell_congr {w h x y : Nat} {gray gray' : Nat → Byte}
    (he : ∀ x' y', x' < w → y' < h → x' ≤ x + 1 → x ≤ x' + 1 → y' ≤ y + 1 → y ≤ y' + 1 →
      gray (y' * w + x') = gray' (y' * w + x')) :
    lbpCell w h gray x y = lbpCell w h gray' x y := by
  simp only [lbpCell]
  split
  · next hi =>
    obtain ⟨h1, h2, h3, h4⟩ := hi
    congr 1 <;> (apply he <;> omega)
  · rfl

/-- `lbp_fn` looks only at the cells of the frame. -/
theorem lbpFn_congr {w h : Nat} {gray gray' : Nat → Byte} (he : ∀ i < w * h, gray i = gray' i) :
    lbpFn w h gray = lbpFn w h gray' := by
  refine List.map_congr_left fun p _ => ?_
  exact lbpCell_congr fun x' y' hx hy _ _ _ _ => he _ (index_lt hx hy)

end Sys2Proof.Machine
end

