-- ==== Sys2Proof/Laws/Ops.lean ====
section
/-! SUPPORT. What each shared operation can do, said once: the frame check, the stores, `exec`, `perform`. -/

namespace Sys2Proof.Machine

variable {s t : State} {i : Instr} {o : FrameOperands}

/-! ### Cells -/

/-- A byte read depends on its cell and on the count of Resets. -/
theorem byteAt_congr {sp : Space} {k : Nat} (hc : t.cell sp k = s.cell sp k) (hr : t.resets = s.resets) :
    t.byteAt sp k = s.byteAt sp k := by
  simp only [State.byteAt, hc, hr]

theorem byteAt_of_cell {sp : Space} {k : Nat} {b : Byte} (h : s.cell sp k = some b) : s.byteAt sp k = b := by
  simp [State.byteAt, h]

theorem writeByte_cell_same (sp : Space) (k : Nat) (b : Byte) : (s.writeByte sp k b).cell sp k = some b := by
  simp [State.cell, State.writeByte, read_write_same]

theorem writeByte_cell_of_ne {sp sp' : Space} {k k' : Nat} (b : Byte) (h : sp' ≠ sp ∨ k' ≠ k) :
    (s.writeByte sp k b).cell sp' k' = s.cell sp' k' := by
  by_cases hs : sp' = sp
  · subst hs
    simp [State.cell, State.writeByte, read_write_of_ne _ _ (h.resolve_left (· rfl))]
  · simp [State.cell, State.writeByte, setMem_mem_of_ne _ _ hs]

theorem storeBuffer_cell (sp sp' : Space) (k : Nat) (bs : List Byte) :
    (s.storeBuffer sp bs).cell sp' k = if sp' = sp ∧ k < bs.length then bs[k]? else s.cell sp' k := by
  by_cases hs : sp' = sp
  · subst hs
    simp [State.cell, State.storeBuffer, read_writeRun_zero]
  · simp [State.cell, State.storeBuffer, setMem_mem_of_ne _ _ hs, hs]

/-! ### The frame check -/

theorem validate_eq_none {a w h n : Nat} : validate a w h n = none ↔ n = w * h * a ∧ 1 ≤ w ∧ 1 ≤ h := by
  simp only [validate]
  split
  · next hn => simp [hn]
  · next hn => split <;> (simp; omega)

theorem validate_of_ne {a w h n : Nat} (hn : n ≠ w * h * a) : validate a w h n = some .dimensionMismatch := by
  simp [validate, hn]

theorem validate_of_zero {a w h n : Nat} (hn : n = w * h * a) (h0 : w = 0 ∨ h = 0) :
    validate a w h n = some .invalidDimensions := by
  simp [validate, hn, h0]

theorem validate_eq_some {a w h n : Nat} {e : ErrorKind} (hv : validate a w h n = some e) :
    e = .dimensionMismatch ∨ e = .invalidDimensions := by
  simp only [validate] at hv
  split at hv
  · exact .inl (Option.some.inj hv).symm
  · split at hv
    · exact .inr (Option.some.inj hv).symm
    · cases hv

theorem complete_of_none {a : Nat} {store : State → State}
    (h : validate a s.width.toNat s.height.toNat s.len.toNat = none) : s.complete a store = (store s).succeed := by
  simp [State.complete, h]

theorem complete_of_some {a : Nat} {store : State → State} {e : ErrorKind}
    (h : validate a s.width.toNat s.height.toNat s.len.toNat = some e) : s.complete a store = s.raise e := by
  simp [State.complete, h]

/-! ### The stores of the commands -/

/-- The stores of a command. -/
def storeOf : Instr → State → State
  | .clr, s => s
  | .gray, s => storeGray s
  | .lbp, s => storeLbp s
  | .proc, s => storeProc s

@[simp] theorem storeOf_status : (storeOf i s).status = s.status := by cases i <;> rfl
@[simp] theorem storeOf_width : (storeOf i s).width = s.width := by cases i <;> rfl
@[simp] theorem storeOf_height : (storeOf i s).height = s.height := by cases i <;> rfl
@[simp] theorem storeOf_len : (storeOf i s).len = s.len := by cases i <;> rfl
@[simp] theorem storeOf_outlen : (storeOf i s).outlen = s.outlen := by cases i <;> rfl
@[simp] theorem storeOf_pix : (storeOf i s).pix = s.pix := by cases i <;> rfl
@[simp] theorem storeOf_params : (storeOf i s).params = s.params := by cases i <;> rfl
@[simp] theorem storeOf_inbox : (storeOf i s).inbox = s.inbox := by cases i <;> rfl
@[simp] theorem storeOf_held : (storeOf i s).held = s.held := by cases i <;> rfl
@[simp] theorem storeOf_replies : (storeOf i s).replies = s.replies := by cases i <;> rfl
@[simp] theorem storeOf_resets : (storeOf i s).resets = s.resets := by cases i <;> rfl

@[simp] theorem frameGray_length : s.frameGray.length = s.area := by simp [State.frameGray, State.area]

theorem frameGray_getElem? {p : Nat} (hp : p < s.area) :
    s.frameGray[p]? = some (pixelLuma s.params.luma (s.byteAt .pix) p) :=
  grayFn_getElem? _ _ hp

/-- What GRAY stores. -/
theorem storeGray_cell (sp : Space) (k : Nat) :
    (storeOf .gray s).cell sp k = if sp = .gray ∧ k < s.area then s.frameGray[k]? else s.cell sp k := by
  simp [storeOf, storeGray, storeBuffer_cell]

/-- What LBP stores. -/
theorem storeLbp_cell (sp : Space) (k : Nat) :
    (storeOf .lbp s).cell sp k = if sp = .lbpm ∧ k < s.area then
      (lbpFn s.width.toNat s.height.toNat (s.byteAt .gray))[k]? else s.cell sp k := by
  simp only [storeOf, storeLbp, storeBuffer_cell, lbpFn_length]
  rfl

/-- What PROC stores. -/
theorem storeProc_cell (sp : Space) (k : Nat) :
    (storeOf .proc s).cell sp k =
      if sp = .lbpm ∧ k < s.area then
        (lbpFn s.width.toNat s.height.toNat fun p => s.frameGray.getD p 0)[k]?
      else if sp = .gray ∧ k < s.area then s.frameGray[k]? else s.cell sp k := by
  simp only [storeOf, storeProc, storeBuffer_cell, lbpFn_length, frameGray_length]
  rfl

/-- No command writes a cell at or above `W * H` (R55). -/
theorem storeOf_cell_of_le {sp : Space} {k : Nat} (hk : s.area ≤ k) : (storeOf i s).cell sp k = s.cell sp k := by
  have : ¬ k < s.area := by omega
  cases i
  · rfl
  · simp [storeGray_cell, this]
  · simp [storeLbp_cell, this]
  · simp [storeProc_cell, this]

/-- The result memory of a command, below `W * H`, is written whole (R55). -/
theorem storeOf_result_written (ho : frameOperands i = some o) {k : Nat} (hk : k < s.area) :
    (storeOf i s).cell o.result k ≠ none := by
  cases i <;> simp only [frameOperands, reduceCtorEq, Option.some.injEq] at ho <;> subst ho
  · simp [storeGray_cell, hk]
  · rw [storeLbp_cell, if_pos ⟨rfl, hk⟩, lbpFn_getElem? _ hk]; simp
  · rw [storeProc_cell, if_pos ⟨rfl, hk⟩, lbpFn_getElem? _ hk]; simp

/-- The stores keep the canonical form. -/
theorem storeOf_wf (h : ∀ sp, Memory.wf (s.mem sp)) (sp : Space) : Memory.wf ((storeOf i s).mem sp) := by
  cases i <;> cases sp <;>
    first
    | exact h .pix
    | exact h .gray
    | exact h .lbpm
    | exact writeRun_wf _ _ (h .gray)
    | exact writeRun_wf _ _ (h .lbpm)

/-- The stores stay inside the memories when the frame fits GRAY and LBPM. -/
theorem storeOf_within (ha : s.area ≤ s.params.maxPix)
    (h : ∀ sp, Memory.within (s.mem sp) (capacity s.params sp)) (sp : Space) :
    Memory.within ((storeOf i s).mem sp) (capacity s.params sp) := by
  cases i <;> cases sp <;>
    first
    | exact h .pix
    | exact h .gray
    | exact h .lbpm
    | exact writeRun_within (by simpa [capacity, State.area] using ha) (h .gray)
    | exact writeRun_within (by simpa [capacity, State.area] using ha) (h .lbpm)

/-! ### The commands -/

/-- The three commands that work on a frame, as one shape. -/
theorem exec_frame (ho : frameOperands i = some o) :
    exec i s = frameCommand i o.source (fun s => s.complete o.arity (storeOf i)) s := by
  cases i <;> simp only [frameOperands, reduceCtorEq, Option.some.injEq] at ho <;> subst ho <;> rfl

theorem frameOperands_ne_clr (ho : frameOperands i = some o) : i ≠ .clr := by
  rintro rfl; cases ho

theorem exists_frameOperands (h : i ≠ .clr) : ∃ o, frameOperands i = some o := by
  cases i
  · exact absurd rfl h
  all_goals exact ⟨_, rfl⟩

@[simp] theorem ofOp_op (i : Instr) : Instr.ofOp i.op = i := by cases i <;> rfl

@[simp] theorem op_ofOp (op : BitVec 2) : (Instr.ofOp op).op = op := by revert op; decide

@[simp] theorem op_eq_zero : i.op = 0#2 ↔ i = .clr := by cases i <;> decide

theorem op_ne_zero (h : i ≠ .clr) : i.op ≠ 0 := fun h0 => h (op_eq_zero.mp h0)

/-- The issue of a frame command (R150). -/
theorem exec_issue (ho : frameOperands i = some o) (hb : s.status.state ≠ .busy)
    (hl : s.len.toNat ≤ capacity s.params o.source) : exec i s = .next (s.issue i) := by
  rw [exec_frame ho, frameCommand, if_neg (fun h => hb h.1), if_neg (by omega), if_neg hb]

/-- The completion step of the command in progress (R151). -/
theorem exec_complete (ho : frameOperands i = some o) (hb : s.status.state = .busy) (hop : s.status.op = i.op)
    (hl : s.len.toNat ≤ capacity s.params o.source) : exec i s = .next (s.complete o.arity (storeOf i)) := by
  rw [exec_frame ho, frameCommand, if_neg (fun h => h.2 hop), if_neg (by omega), if_pos hb]

/-- Everything a command can do when it answers a next state. -/
theorem exec_cases (h : exec i s = .next t) :
    (s.status.state = .busy ∧ (i = .clr ∨ s.status.op ≠ i.op) ∧ t = s.hold (ctrlWrite i)) ∨
    (s.status.state ≠ .busy ∧ i = .clr ∧ t = s.clear) ∨
    (∃ o, frameOperands i = some o ∧ s.status.state ≠ .busy ∧ s.len.toNat ≤ capacity s.params o.source ∧
      t = s.issue i) ∨
    (∃ o, frameOperands i = some o ∧ s.status.state = .busy ∧ s.status.op = i.op ∧
      s.len.toNat ≤ capacity s.params o.source ∧ t = s.complete o.arity (storeOf i)) := by
  by_cases hi : i = .clr
  · subst hi
    simp only [exec, execClr] at h
    split at h <;> cases h
    · next hb => exact .inl ⟨hb, .inl rfl, rfl⟩
    · next hb => exact .inr (.inl ⟨hb, rfl, rfl⟩)
  · obtain ⟨o, ho⟩ := exists_frameOperands hi
    rw [exec_frame ho, frameCommand] at h
    split at h
    · next hh => cases h; exact .inl ⟨hh.1, .inr hh.2, rfl⟩
    · next hh =>
      split at h
      · cases h
      · next hl =>
        split at h <;> cases h
        · next hb =>
          exact .inr (.inr (.inr ⟨o, ho, hb, by_contra fun hop => hh ⟨hb, hop⟩, by omega, rfl⟩))
        · next hb => exact .inr (.inr (.inl ⟨o, ho, hb, by omega, rfl⟩))

/-- A command stops only on a LEN above the capacity of its source memory. -/
theorem exec_refused {r : Refusal} (h : exec i s = .refused r) :
    r = .lenAboveCapacity ∧ ∃ o, frameOperands i = some o ∧ capacity s.params o.source < s.len.toNat := by
  by_cases hi : i = .clr
  · subst hi
    simp only [exec, execClr] at h
    split at h <;> cases h
  · obtain ⟨o, ho⟩ := exists_frameOperands hi
    rw [exec_frame ho, frameCommand] at h
    split at h
    · cases h
    · split at h
      · next hl => cases h; exact ⟨rfl, o, ho, hl⟩
      · split at h <;> cases h

theorem exec_ne_fault (f : Fault) : exec i s ≠ .fault f := by
  intro h
  by_cases hi : i = .clr
  · subst hi
    simp only [exec, execClr] at h
    split at h <;> cases h
  · obtain ⟨o, ho⟩ := exists_frameOperands hi
    rw [exec_frame ho, frameCommand] at h
    split at h
    · cases h
    · split at h
      · cases h
      · split at h <;> cases h

/-- The two ends of a completion step. -/
theorem complete_cases (a : Nat) (store : State → State) :
    (∃ e, validate a s.width.toNat s.height.toNat s.len.toNat = some e ∧ s.complete a store = s.raise e) ∨
    (validate a s.width.toNat s.height.toNat s.len.toNat = none ∧ s.complete a store = (store s).succeed) := by
  cases hv : validate a s.width.toNat s.height.toNat s.len.toNat with
  | some e => exact .inl ⟨e, rfl, complete_of_some hv⟩
  | none => exact .inr ⟨rfl, complete_of_none hv⟩

/-- A frame that passes the check with LEN inside the source memory fits GRAY and LBPM (R131). -/
theorem area_le_of_validate (ho : frameOperands i = some o) (hl : s.len.toNat ≤ capacity s.params o.source)
    (hv : validate o.arity s.width.toNat s.height.toNat s.len.toNat = none) :
    s.area ≤ s.params.maxPix ∧ 1 ≤ s.area ∧ s.area < 2 ^ 32 := by
  obtain ⟨hn, hw, hh⟩ := validate_eq_none.mp hv
  have h1 : 1 ≤ s.area := Nat.mul_le_mul hw hh
  have hm := s.params.maxPix_le
  have h2 : s.area ≤ s.params.maxPix := by
    cases i <;> simp only [frameOperands, reduceCtorEq, Option.some.injEq] at ho <;> subst ho <;>
      simp only [capacity, State.area] at * <;> omega
  exact ⟨h2, h1, by omega⟩

/-- OUTLEN after success, as a number. -/
theorem succeed_outlen_toNat (h : s.area < 2 ^ 32) : s.succeed.outlen.toNat = s.area := by
  simpa [State.area] using h

/-! ### Host actions -/

theorem regAt_eq_some {off : Nat} {r : Reg} : regAt off = some r ↔ off = regOffset r := by
  simp only [regAt]
  constructor
  · intro h
    repeat' split at h
    all_goals first | (cases h; simpa [regOffset]) | cases h
  · rintro rfl
    cases r <;> rfl

theorem regAt_eq_none {off : Nat} : regAt off = none ↔ 0x18 ≤ off ∨ off % 4 ≠ 0 := by
  simp only [regAt]
  repeat' split
  all_goals simp; try omega

@[simp] theorem regAt_regOffset (r : Reg) : regAt (regOffset r) = some r := regAt_eq_some.mpr rfl

/-- `regOffsetWf` of WellFormed says the same as the map. -/
theorem regOffsetWf_iff {off : Nat} : regOffsetWf off = true ↔ ∃ r, regAt off = some r := by
  rw [← Option.isSome_iff_exists, ← Option.ne_none_iff_isSome, ne_eq, regAt_eq_none]
  simp [regOffsetWf]; omega

theorem cellWf_iff {p : Params} {sp : Space} {idx : Nat} : cellWf p sp idx = true ↔ idx < capacity p sp := by
  cases sp <;> simp [cellWf, capacity]

/-- Everything a host action can do when it answers a next state. -/
theorem perform_cases {a : HostAction} (h : perform a s = .next t) :
    (∃ v, a = .regWrite 0x00 v ∧ exec (decode v) s = .next t) ∨
    (∃ r v, r ≠ .ctrl ∧ a = .regWrite (regOffset r) v ∧ t = s.writeReg r v) ∨
    (∃ r, a = .regRead (regOffset r) ∧ t = s.reply (.word (s.readReg r))) ∨
    (∃ sp idx b, sp ≠ .lbpm ∧ idx < capacity s.params sp ∧ a = .memWrite8 sp idx b ∧ t = s.writeByte sp idx b) ∨
    (∃ idx b, idx < capacity s.params .lbpm ∧ a = .memWrite8 .lbpm idx b ∧ t = s) ∨
    (∃ sp idx, idx < capacity s.params sp ∧ a = .memRead8 sp idx ∧ t = s.reply (.byte (s.byteAt sp idx))) ∨
    (a = .reset ∧ t = s.resetBlock) := by
  cases a with
  | regWrite off v =>
    cases hr : regAt off with
    | none => simp [perform, hostRegWrite, hr] at h
    | some r =>
      obtain rfl := regAt_eq_some.mp hr
      cases r
      case ctrl => exact .inl ⟨v, rfl, by simpa [perform, hostRegWrite, hr] using h⟩
      all_goals
        refine .inr (.inl ⟨_, v, ?_, rfl, ?_⟩)
        · exact Reg.noConfusion
        · simpa [perform, hostRegWrite, hr] using h.symm
  | regRead off =>
    cases hr : regAt off with
    | none => simp [perform, hostRegRead, hr] at h
    | some r =>
      obtain rfl := regAt_eq_some.mp hr
      exact .inr (.inr (.inl ⟨r, rfl, by simpa [perform, hostRegRead, hr] using h.symm⟩))
  | memWrite8 sp idx b =>
    simp only [perform, hostMemWrite] at h
    split at h
    · next hi =>
      cases sp
      case lbpm => exact .inr (.inr (.inr (.inr (.inl ⟨idx, b, hi, rfl, by simpa using h.symm⟩))))
      all_goals
        exact .inr (.inr (.inr (.inl ⟨_, idx, b, Space.noConfusion, hi, rfl, by simpa using h.symm⟩)))
    · cases h
  | memRead8 sp idx =>
    simp only [perform, hostMemRead] at h
    split at h
    · next hi => exact .inr (.inr (.inr (.inr (.inr (.inl ⟨sp, idx, hi, rfl, by simpa using h.symm⟩)))))
    · cases h
  | reset => exact .inr (.inr (.inr (.inr (.inr (.inr ⟨rfl, by simpa [perform] using h.symm⟩)))))

/-- What a register write leaves alone. -/
@[simp] theorem writeReg_status (r : Reg) (v : Word) : (s.writeReg r v).status = s.status := by cases r <;> rfl
@[simp] theorem writeReg_outlen (r : Reg) (v : Word) : (s.writeReg r v).outlen = s.outlen := by cases r <;> rfl
@[simp] theorem writeReg_pix (r : Reg) (v : Word) : (s.writeReg r v).pix = s.pix := by cases r <;> rfl
@[simp] theorem writeReg_gray (r : Reg) (v : Word) : (s.writeReg r v).gray = s.gray := by cases r <;> rfl
@[simp] theorem writeReg_lbpm (r : Reg) (v : Word) : (s.writeReg r v).lbpm = s.lbpm := by cases r <;> rfl
@[simp] theorem writeReg_params (r : Reg) (v : Word) : (s.writeReg r v).params = s.params := by cases r <;> rfl
@[simp] theorem writeReg_inbox (r : Reg) (v : Word) : (s.writeReg r v).inbox = s.inbox := by cases r <;> rfl
@[simp] theorem writeReg_held (r : Reg) (v : Word) : (s.writeReg r v).held = s.held := by cases r <;> rfl
@[simp] theorem writeReg_replies (r : Reg) (v : Word) : (s.writeReg r v).replies = s.replies := by cases r <;> rfl
@[simp] theorem writeReg_resets (r : Reg) (v : Word) : (s.writeReg r v).resets = s.resets := by cases r <;> rfl
@[simp] theorem writeReg_mem (r : Reg) (v : Word) (sp : Space) : (s.writeReg r v).mem sp = s.mem sp := by
  cases r <;> cases sp <;> rfl
@[simp] theorem writeReg_cell (r : Reg) (v : Word) (sp : Space) (k : Nat) :
    (s.writeReg r v).cell sp k = s.cell sp k := by
  simp only [State.cell, writeReg_mem]

theorem perform_ne_fault {a : HostAction} (f : Fault) : perform a s ≠ .fault f := by
  intro h
  cases a with
  | regWrite off v =>
    simp only [perform, hostRegWrite] at h
    cases hr : regAt off with
    | none => simp [hr] at h
    | some r =>
      cases r
      case ctrl => exact exec_ne_fault f (by simpa [hr] using h)
      all_goals simp [hr] at h
  | regRead off =>
    simp only [perform, hostRegRead] at h
    cases hr : regAt off <;> simp [hr] at h
  | memWrite8 sp idx b =>
    simp only [perform, hostMemWrite] at h
    split at h
    · cases sp <;> cases h
    · cases h
  | memRead8 sp idx =>
    simp only [perform, hostMemRead] at h
    split at h <;> cases h
  | reset => cases h

/-- What a host action is refused for. -/
theorem perform_refused {a : HostAction} {r : Refusal} (h : perform a s = .refused r) :
    (r = .lenAboveCapacity ∧ ∃ v o, a = .regWrite 0x00 v ∧ frameOperands (decode v) = some o ∧
      capacity s.params o.source < s.len.toNat) ∨
    (r = .noSuchRegister ∧ ∃ off, (a = .regRead off ∨ ∃ v, a = .regWrite off v) ∧ (0x18 ≤ off ∨ off % 4 ≠ 0)) ∨
    (r = .noSuchCell ∧ ∃ sp idx, (a = .memRead8 sp idx ∨ ∃ b, a = .memWrite8 sp idx b) ∧
      capacity s.params sp ≤ idx) := by
  cases a with
  | regWrite off v =>
    simp only [perform, hostRegWrite] at h
    cases hr : regAt off with
    | none =>
      refine .inr (.inl ⟨?_, off, .inr ⟨v, rfl⟩, regAt_eq_none.mp hr⟩)
      simpa [hr] using h.symm
    | some r' =>
      cases r'
      case ctrl =>
        obtain ⟨rfl, o, ho, hl⟩ := exec_refused (by simpa [hr] using h)
        exact .inl ⟨rfl, v, o, by rw [regAt_eq_some.mp hr, regOffset], ho, hl⟩
      all_goals simp [hr] at h
  | regRead off =>
    simp only [perform, hostRegRead] at h
    cases hr : regAt off with
    | none =>
      refine .inr (.inl ⟨?_, off, .inl rfl, regAt_eq_none.mp hr⟩)
      simpa [hr] using h.symm
    | some r' => simp [hr] at h
  | memWrite8 sp idx b =>
    simp only [perform, hostMemWrite] at h
    split at h
    · cases sp <;> cases h
    · next hi => cases h; exact .inr (.inr ⟨rfl, sp, idx, .inr ⟨b, rfl⟩, by omega⟩)
  | memRead8 sp idx =>
    simp only [perform, hostMemRead] at h
    split at h
    · cases h
    · next hi => cases h; exact .inr (.inr ⟨rfl, sp, idx, .inl rfl, by omega⟩)
  | reset => cases h

end Sys2Proof.Machine
end

