-- ==== Sys2Proof/Laws/Invariant.lean ====
section
/-! SUPPORT. Which updates keep the invariant: each shared operation once. -/

namespace Sys2Proof.Machine

variable {s t : State} {i : Instr} {o : FrameOperands}

/-- The invariant looks at STATUS, OUTLEN, LEN, the parameters, the memories and what is held. -/
theorem inv_congr (h : s.Inv) (h1 : t.status = s.status) (h2 : t.outlen = s.outlen) (h3 : t.len = s.len)
    (h4 : t.params = s.params) (h5 : ∀ sp, t.mem sp = s.mem sp)
    (h6 : ∀ a, t.held = some a → waitsWhileBusy a = true) : t.Inv where
  wf sp := by rw [h5]; exact h.wf sp
  within sp := by rw [h5, h4]; exact h.within sp
  err_iff := by rw [h1]; exact h.err_iff
  err_legal := by rw [h1]; exact h.err_legal
  op_iff := by rw [h1]; exact h.op_iff
  outlen_zero := by rw [h1, h2]; exact h.outlen_zero
  outlen_bounds := by rw [h1, h2, h4]; exact h.outlen_bounds
  result_written := by rw [h1, h2]; simp only [State.cell, h5]; exact h.result_written
  busy_len := by rw [h1, h3, h4]; exact h.busy_len
  held_waits := h6

theorem inv_issue (ho : frameOperands i = some o) (hl : s.len.toNat ≤ capacity s.params o.source) (h : s.Inv) :
    (s.issue i).Inv where
  wf sp := by simpa using h.wf sp
  within sp := by simpa using h.within sp
  err_iff := by simp
  err_legal := by simp
  op_iff := by simp [frameOperands_ne_clr ho]
  outlen_zero := by simp
  outlen_bounds := by simp
  result_written := by simp
  busy_len _ o' ho' := by
    simp only [issue_status, statusIssued_eq, ofOp_op, ho, Option.some.injEq] at ho'
    subst ho'
    exact hl
  held_waits := h.held_waits

theorem inv_clear (h : s.Inv) : s.clear.Inv where
  wf sp := by simpa using h.wf sp
  within sp := by simpa using h.within sp
  err_iff := by simp
  err_legal := by simp
  op_iff := by simp
  outlen_zero := by simp
  outlen_bounds := by simp
  result_written := by simp
  busy_len := by simp
  held_waits := h.held_waits

theorem inv_raise {e : ErrorKind} (he : e = .dimensionMismatch ∨ e = .invalidDimensions) (hop : s.status.op ≠ 0)
    (h : s.Inv) : (s.raise e).Inv where
  wf sp := by simpa using h.wf sp
  within sp := by simpa using h.within sp
  err_iff := by rcases he with rfl | rfl <;> simp [errorCode]
  err_legal := by rcases he with rfl | rfl <;> simp [errorCode]
  op_iff := by simpa using hop
  outlen_zero := by simp
  outlen_bounds := by simp
  result_written := by simp
  busy_len := by simp
  held_waits := h.held_waits

theorem resultSpace_op (ho : frameOperands i = some o) : resultSpace i.op = o.result := by
  cases i <;> simp only [frameOperands, reduceCtorEq, Option.some.injEq] at ho <;> subst ho <;> rfl

theorem inv_succeed (ho : frameOperands i = some o) (hop : s.status.op = i.op)
    (ha : s.area ≤ s.params.maxPix ∧ 1 ≤ s.area ∧ s.area < 2 ^ 32) (h : s.Inv) : (storeOf i s).succeed.Inv where
  wf sp := by simpa using storeOf_wf h.wf sp
  within sp := by simpa using storeOf_within ha.1 h.within sp
  err_iff := by simp
  err_legal := by simp
  op_iff := by simp [hop, frameOperands_ne_clr ho]
  outlen_zero := by simp
  outlen_bounds _ := by
    rw [succeed_outlen_toNat (by simpa [State.area] using ha.2.2)]
    simpa [State.area] using ⟨ha.2.1, ha.1⟩
  result_written _ k hk := by
    rw [succeed_outlen_toNat (by simpa [State.area] using ha.2.2)] at hk
    simp only [succeed_cell, succeed_status, succeeded_eq, storeOf_status, hop, resultSpace_op ho]
    exact storeOf_result_written ho (by simpa [State.area] using hk)
  busy_len := by simp
  held_waits := by simpa using h.held_waits

theorem inv_complete (ho : frameOperands i = some o) (hop : s.status.op = i.op)
    (hl : s.len.toNat ≤ capacity s.params o.source) (h : s.Inv) : (s.complete o.arity (storeOf i)).Inv := by
  rcases complete_cases (s := s) o.arity (storeOf i) with ⟨e, hv, hc⟩ | ⟨hv, hc⟩ <;> rw [hc]
  · exact inv_raise (validate_eq_some hv) (hop ▸ op_ne_zero (frameOperands_ne_clr ho)) h
  · exact inv_succeed ho hop (area_le_of_validate ho hl hv) h

theorem inv_resetBlock (h : s.Inv) : s.resetBlock.Inv where
  wf sp := by simp
  within sp := by simp [Memory.within]
  err_iff := by simp
  err_legal := by simp
  op_iff := by simp
  outlen_zero := by simp
  outlen_bounds := by simp
  result_written := by simp
  busy_len := by simp
  held_waits a ha := by
    simp only [resetBlock_held] at ha
    split at ha
    · exact h.held_waits a ha
    · cases ha

/-- A host write inside a memory keeps the invariant: a written cell stays written. -/
theorem inv_writeByte {sp : Space} {k : Nat} {b : Byte} (hk : k < capacity s.params sp) (h : s.Inv) :
    (s.writeByte sp k b).Inv where
  wf sp' := by
    by_cases hs : sp' = sp
    · subst hs; simpa [State.writeByte] using write_wf _ _ (h.wf sp')
    · simpa [State.writeByte, setMem_mem_of_ne _ _ hs] using h.wf sp'
  within sp' := by
    by_cases hs : sp' = sp
    · subst hs; simpa [State.writeByte] using write_within _ hk (h.within sp')
    · simpa [State.writeByte, setMem_mem_of_ne _ _ hs] using h.within sp'
  err_iff := by simpa using h.err_iff
  err_legal := by simpa using h.err_legal
  op_iff := by simpa using h.op_iff
  outlen_zero := by simpa using h.outlen_zero
  outlen_bounds := by simpa using h.outlen_bounds
  result_written hd i hi := by
    have := h.result_written (by simpa using hd) i (by simpa using hi)
    by_cases hs : resultSpace s.status.op = sp ∧ i = k
    · obtain ⟨hs, rfl⟩ := hs
      simp [hs, writeByte_cell_same]
    · simp only [writeByte_status]
      rwa [writeByte_cell_of_ne _ (by tauto)]
  busy_len := by simpa using h.busy_len
  held_waits := by simpa using h.held_waits

/-- A host write to a register outside BUSY keeps the invariant. -/
theorem inv_writeReg {r : Reg} {v : Word} (hb : s.status.state ≠ .busy) (h : s.Inv) : (s.writeReg r v).Inv where
  wf := by simpa using h.wf
  within := by simpa using h.within
  err_iff := by simpa using h.err_iff
  err_legal := by simpa using h.err_legal
  op_iff := by simpa using h.op_iff
  outlen_zero := by simpa using h.outlen_zero
  outlen_bounds := by simpa using h.outlen_bounds
  result_written := by simpa using h.result_written
  busy_len h' := absurd (by simpa using h') hb
  held_waits := by simpa using h.held_waits

end Sys2Proof.Machine
end

