-- ==== Sys2Proof/Laws/PerInstr.lean ====
section
/-! SUPPORT. Statements made per command: the shape of its word. -/

namespace Sys2Proof.Laws.WordShape

/-- The word of a command is its row of the match-and-mask table, and its opcode alone names it (R80, R82). -/
def Statement (i : Instr) : Prop :=
  i.wf = true ∧ ⟨0x00000003, encode i, i⟩ ∈ opcodeTable ∧ (encode i).toNat = i.op.toNat ∧ Instr.ofOp i.op = i

theorem clr : Statement .clr := by simp only [Statement]; decide

theorem gray : Statement .gray := by simp only [Statement]; decide

theorem lbp : Statement .lbp := by simp only [Statement]; decide

theorem proc : Statement .proc := by simp only [Statement]; decide

end Sys2Proof.Laws.WordShape
end

