-- ==== Sys2Proof/Laws/Step.lean ====
section
/-! SUPPORT. What a step can do, said once; and runs of steps. -/

namespace Sys2Proof.Machine

variable {s t u : State}

theorem waitsWhileBusy_eq_false {a : HostAction} : waitsWhileBusy a = false ↔ a = .regRead 0x04 ∨ a = .reset := by
  cases a <;> simp [waitsWhileBusy]

/-- The next move, case by case: the engine's turn; a Reset; a host action from the inbox; a held action; an action that
begins to be held; a turn with nothing to do. -/
theorem nextMove_cases (s : State) :
    (∃ es, s.nextMove = (.engine, { s with inbox := es }) ∧ s.status.state = .busy ∧
      (es = s.inbox ∨ s.inbox = .engine :: es)) ∨
    (∃ es, s.nextMove = (.host .reset, { s with inbox := es }) ∧ s.inbox = .host .reset :: es) ∨
    (∃ a es, s.nextMove = (.host a, { s with inbox := es }) ∧ s.inbox = .host a :: es ∧ s.held = none ∧
      (s.status.state = .busy → a = .regRead 0x04)) ∨
    (∃ a, s.nextMove = (.host a, { s with held := none }) ∧ s.status.state ≠ .busy ∧ s.held = some a) ∨
    (∃ a es, s.nextMove = (.quiet, { s with inbox := es, held := some a }) ∧ s.status.state = .busy ∧
      s.held = none ∧ s.inbox = .host a :: es ∧ waitsWhileBusy a = true) ∨
    (∃ es, s.nextMove = (.quiet, { s with inbox := es }) ∧ s.status.state ≠ .busy ∧ s.held = none ∧
      ((s.inbox = [] ∧ es = []) ∨ s.inbox = .engine :: es)) := by
  by_cases hb : s.status.state = .busy
  · simp only [State.nextMove, if_pos hb, State.busyMove]
    split
    · next hi => exact .inl ⟨[], by rw [← hi], hb, .inl hi.symm⟩
    · next rest hi => exact .inl ⟨rest, rfl, hb, .inr hi⟩
    · next a rest hi =>
      split
      · next ha => subst ha; exact .inr (.inl ⟨rest, rfl, hi⟩)
      · next ha =>
        split
        · exact .inl ⟨s.inbox, rfl, hb, .inl rfl⟩
        · next hh =>
          have hh : s.held = none := by simpa using hh
          split
          · next hw => exact .inr (.inr (.inr (.inr (.inl ⟨a, rest, rfl, hb, hh, hi, hw⟩))))
          · next hw =>
            have := waitsWhileBusy_eq_false.mp (by simpa using hw)
            exact .inr (.inr (.inl ⟨a, rest, rfl, hi, hh, fun _ => this.resolve_right ha⟩))
  · simp only [State.nextMove, if_neg hb, State.freeMove]
    split
    · next a hh => exact .inr (.inr (.inr (.inl ⟨a, rfl, hb, hh⟩)))
    · next hh =>
      split
      · next hi => exact .inr (.inr (.inr (.inr (.inr ⟨[], by rw [← hi], hb, hh, .inl ⟨hi, rfl⟩⟩))))
      · next rest hi => exact .inr (.inr (.inr (.inr (.inr ⟨rest, rfl, hb, hh, .inr hi⟩))))
      · next a rest hi => exact .inr (.inr (.inl ⟨a, rest, rfl, hi, hh, fun h => absurd h hb⟩))

theorem step_of_nextMove {m : Move} (h : s.nextMove = (m, t)) : step s = makeMove m t := by
  simp [step, h]

/-- The engine's turn on a command that is in progress. -/
theorem engineTurn_eq {i : Instr} (hop : s.status.op = i.op) (hi : i ≠ .clr) : engineTurn s = exec i s := by
  rw [engineTurn, if_neg (hop ▸ op_ne_zero hi), hop, ofOp_op]

theorem engineTurn_of_ne {s : State} (h : s.status.op ≠ 0) : engineTurn s = exec (Instr.ofOp s.status.op) s := by
  rw [engineTurn, if_neg h]

/-! ### Single steps -/

theorem step_free_host {a : HostAction} {es : List Event} (hb : s.status.state ≠ .busy) (hh : s.held = none)
    (hi : s.inbox = .host a :: es) : step s = perform a { s with inbox := es } := by
  apply step_of_nextMove (m := .host a)
  simp [State.nextMove, hb, State.freeMove, hh, hi]

theorem step_free_held {a : HostAction} (hb : s.status.state ≠ .busy) (hh : s.held = some a) :
    step s = perform a { s with held := none } := by
  apply step_of_nextMove (m := .host a)
  simp [State.nextMove, hb, State.freeMove, hh]

theorem step_free_engine {es : List Event} (hb : s.status.state ≠ .busy) (hh : s.held = none)
    (hi : s.inbox = .engine :: es) : step s = .next { s with inbox := es } := by
  apply step_of_nextMove (m := .quiet)
  simp [State.nextMove, hb, State.freeMove, hh, hi]

/-- With nothing left to do the state stays. -/
theorem step_quiet (hb : s.status.state ≠ .busy) (hs : s.Between) : step s = .next s := by
  apply step_of_nextMove (m := .quiet)
  simp [State.nextMove, hb, State.freeMove, hs.1, hs.2]

theorem step_busy_engine {es : List Event} (hb : s.status.state = .busy) (hi : s.inbox = .engine :: es) :
    step s = engineTurn { s with inbox := es } := by
  apply step_of_nextMove (m := .engine)
  simp [State.nextMove, hb, State.busyMove, hi]

theorem step_busy_nil (hb : s.status.state = .busy) (hi : s.inbox = []) : step s = engineTurn s := by
  apply step_of_nextMove (m := .engine)
  simp [State.nextMove, hb, State.busyMove, hi]

theorem step_busy_held {a : HostAction} {es : List Event} (hb : s.status.state = .busy) (hh : s.held ≠ none)
    (hi : s.inbox = .host a :: es) (ha : a ≠ .reset) : step s = engineTurn s := by
  apply step_of_nextMove (m := .engine)
  simp [State.nextMove, hb, State.busyMove, hi, ha, hh]

theorem step_busy_hold {a : HostAction} {es : List Event} (hb : s.status.state = .busy) (hh : s.held = none)
    (hi : s.inbox = .host a :: es) (hw : waitsWhileBusy a = true) :
    step s = .next { s with inbox := es, held := some a } := by
  have ha : a ≠ .reset := by rintro rfl; simp [waitsWhileBusy] at hw
  apply step_of_nextMove (m := .quiet)
  simp [State.nextMove, hb, State.busyMove, hi, ha, hh, hw]

theorem step_busy_status {es : List Event} (hb : s.status.state = .busy) (hh : s.held = none)
    (hi : s.inbox = .host (.regRead 0x04) :: es) : step s = perform (.regRead 0x04) { s with inbox := es } := by
  apply step_of_nextMove (m := .host (.regRead 0x04))
  simp [State.nextMove, hb, State.busyMove, hi, hh, waitsWhileBusy]

theorem step_reset {es : List Event} (hi : s.inbox = .host .reset :: es)
    (h : s.status.state = .busy ∨ s.held = none) : step s = .next (State.resetBlock { s with inbox := es }) := by
  by_cases hb : s.status.state = .busy
  · exact step_of_nextMove (m := .host .reset) (by simp [State.nextMove, hb, State.busyMove, hi])
  · exact step_free_host hb (h.resolve_left hb) hi

theorem perform_status : perform (.regRead 0x04) s = .next (s.reply (.word s.status.word)) := rfl

/-! ### Runs -/

theorem run_succ_of_next {k : Nat} (h : step s = .next t) : run (k + 1) s = run k t := by
  simp [run, h]

theorem run_add {j k : Nat} (h : run j s = .next t) : run (j + k) s = run k t := by
  induction j generalizing s with
  | zero => cases h; simp
  | succ j ih =>
    rw [Nat.succ_add]
    simp only [run] at h ⊢
    cases hs : step s <;> simp only [hs] at h ⊢ <;> first | exact ih h | cases h

/-- A block with nothing left to do stays as it is for any number of steps. -/
theorem run_quiet (k : Nat) (hb : s.status.state ≠ .busy) (hs : s.Between) : run k s = .next s := by
  induction k with
  | zero => rfl
  | succ k ih => rw [run_succ_of_next (step_quiet hb hs), ih]

/-- A run that has come to rest may be given more steps. -/
theorem run_of_le {j k : Nat} (hjk : j ≤ k) (h : run j s = .next t) (hb : t.status.state ≠ .busy)
    (ht : t.Between) : run k s = .next t := by
  obtain ⟨d, rfl⟩ := Nat.exists_eq_add_of_le hjk
  rw [run_add h, run_quiet d hb ht]

/-- `run` is the host's own notion of a run. -/
theorem run_eq_core_run (k : Nat) (s : State) : run k s = Host.Core.run Sys2Proof.core k s := by
  induction k generalizing s with
  | zero => rfl
  | succ k ih =>
    simp only [run, Host.Core.run]
    cases h : step s with
    | next t => simpa [Sys2Proof.core, h] using ih t
    | fault f => simp [Sys2Proof.core, h]
    | refused r => simp [Sys2Proof.core, h]

end Sys2Proof.Machine
end

