-- ==== Sys2Proof/Laws/Run.lean ====
section
/-! SUPPORT. Runs of a block that starts between two calls: the host's side does not reach into the block, and a block that
is still BUSY finishes first. -/

namespace Sys2Proof.Machine

variable {s t u : State} {i : Instr} {o : FrameOperands}

/-! ### The host's side does not reach into the block -/

/-- `s` with another host side. -/
def State.withHost (s : State) (es : List Event) (hd : Option HostAction) (rs : List Reply) : State :=
  { s with inbox := es, held := hd, replies := rs }

@[simp] theorem withHost_status (es hd rs) : (s.withHost es hd rs).status = s.status := rfl
@[simp] theorem withHost_width (es hd rs) : (s.withHost es hd rs).width = s.width := rfl
@[simp] theorem withHost_height (es hd rs) : (s.withHost es hd rs).height = s.height := rfl
@[simp] theorem withHost_len (es hd rs) : (s.withHost es hd rs).len = s.len := rfl
@[simp] theorem withHost_outlen (es hd rs) : (s.withHost es hd rs).outlen = s.outlen := rfl
@[simp] theorem withHost_params (es hd rs) : (s.withHost es hd rs).params = s.params := rfl
@[simp] theorem withHost_inbox (es hd rs) : (s.withHost es hd rs).inbox = es := rfl
@[simp] theorem withHost_held (es hd rs) : (s.withHost es hd rs).held = hd := rfl
@[simp] theorem withHost_replies (es hd rs) : (s.withHost es hd rs).replies = rs := rfl
@[simp] theorem withHost_resets (es hd rs) : (s.withHost es hd rs).resets = s.resets := rfl
@[simp] theorem withHost_mem (es hd rs sp) : (s.withHost es hd rs).mem sp = s.mem sp := by cases sp <;> rfl
@[simp] theorem withHost_cell (es hd rs sp k) : (s.withHost es hd rs).cell sp k = s.cell sp k := by
  simp only [State.cell, withHost_mem]
@[simp] theorem withHost_byteAt (es hd rs sp k) : (s.withHost es hd rs).byteAt sp k = s.byteAt sp k := by
  simp only [State.byteAt, withHost_cell, withHost_resets]
@[simp] theorem withHost_withHost (es hd rs es' hd' rs') :
    (s.withHost es hd rs).withHost es' hd' rs' = s.withHost es' hd' rs' := rfl
theorem withHost_self : s.withHost s.inbox s.held s.replies = s := rfl

theorem withHost_of_between (h : s.Between) : s.withHost [] none s.replies = s := by
  rw [← h.1, ← h.2]; rfl

theorem byteAt_withHost (es hd rs sp) : (s.withHost es hd rs).byteAt sp = s.byteAt sp :=
  funext fun k => withHost_byteAt es hd rs sp k

theorem storeOf_withHost (es hd rs) : storeOf i (s.withHost es hd rs) = (storeOf i s).withHost es hd rs := by
  have h1 : (s.withHost es hd rs).frameGray = s.frameGray := by
    simp only [State.frameGray, byteAt_withHost, withHost_params, withHost_width, withHost_height]
  cases i
  · rfl
  · simp only [storeOf, storeGray, h1]; rfl
  · simp only [storeOf, storeLbp, byteAt_withHost]; rfl
  · simp only [storeOf, storeProc, h1]; rfl

/-- A completion step does the same whatever the host has done or will do. -/
theorem complete_withHost (a es hd rs) :
    (s.withHost es hd rs).complete a (storeOf i) = (s.complete a (storeOf i)).withHost es hd rs := by
  rcases complete_cases (s := s) a (storeOf i) with ⟨e, hv, hc⟩ | ⟨hv, hc⟩ <;> rw [hc]
  · rw [complete_of_some (s := s.withHost es hd rs) hv]; rfl
  · rw [complete_of_none (s := s.withHost es hd rs) hv, storeOf_withHost]; rfl

@[simp] theorem complete_inbox (a) : (s.complete a (storeOf i)).inbox = s.inbox := by
  rcases complete_cases (s := s) a (storeOf i) with ⟨e, hv, hc⟩ | ⟨hv, hc⟩ <;> simp [hc]
@[simp] theorem complete_held (a) : (s.complete a (storeOf i)).held = s.held := by
  rcases complete_cases (s := s) a (storeOf i) with ⟨e, hv, hc⟩ | ⟨hv, hc⟩ <;> simp [hc]
@[simp] theorem complete_replies (a) : (s.complete a (storeOf i)).replies = s.replies := by
  rcases complete_cases (s := s) a (storeOf i) with ⟨e, hv, hc⟩ | ⟨hv, hc⟩ <;> simp [hc]
@[simp] theorem complete_params (a) : (s.complete a (storeOf i)).params = s.params := by
  rcases complete_cases (s := s) a (storeOf i) with ⟨e, hv, hc⟩ | ⟨hv, hc⟩ <;> simp [hc]
@[simp] theorem complete_width (a) : (s.complete a (storeOf i)).width = s.width := by
  rcases complete_cases (s := s) a (storeOf i) with ⟨e, hv, hc⟩ | ⟨hv, hc⟩ <;> simp [hc]
@[simp] theorem complete_height (a) : (s.complete a (storeOf i)).height = s.height := by
  rcases complete_cases (s := s) a (storeOf i) with ⟨e, hv, hc⟩ | ⟨hv, hc⟩ <;> simp [hc]
@[simp] theorem complete_len (a) : (s.complete a (storeOf i)).len = s.len := by
  rcases complete_cases (s := s) a (storeOf i) with ⟨e, hv, hc⟩ | ⟨hv, hc⟩ <;> simp [hc]
@[simp] theorem complete_resets (a) : (s.complete a (storeOf i)).resets = s.resets := by
  rcases complete_cases (s := s) a (storeOf i) with ⟨e, hv, hc⟩ | ⟨hv, hc⟩ <;> simp [hc]

/-- A completion step ends in DONE or ERROR (R151). -/
theorem complete_state (a) :
    (s.complete a (storeOf i)).status.state = .done ∨ (s.complete a (storeOf i)).status.state = .error := by
  rcases complete_cases (s := s) a (storeOf i) with ⟨e, hv, hc⟩ | ⟨hv, hc⟩ <;> simp [hc]

theorem complete_ne_busy (a) : (s.complete a (storeOf i)).status.state ≠ .busy := by
  rcases complete_state (s := s) (i := i) a with h | h <;> simp [h]

/-! ### The first action of a host on a block between calls -/

/-- From a block that is not BUSY the first action takes effect at once. -/
theorem step_first {a : HostAction} {es : List Event} {rs : List Reply} (hb : s.status.state ≠ .busy) :
    step (s.withHost (.host a :: es) none rs) = perform a (s.withHost es none rs) :=
  step_free_host hb rfl rfl

/-- The command in progress at a state that meets the invariant. -/
theorem exists_command (h : s.Inv) (hb : s.status.state = .busy) :
    ∃ i o, frameOperands i = some o ∧ s.status.op = i.op ∧ s.len.toNat ≤ capacity s.params o.source := by
  have hop0 : s.status.op ≠ 0 := h.op_iff.not.mpr (by simp [hb])
  have hi : Instr.ofOp s.status.op ≠ .clr := fun hc => hop0 (by rw [← op_ofOp s.status.op, hc]; rfl)
  obtain ⟨o, ho⟩ := exists_frameOperands hi
  exact ⟨_, o, ho, (op_ofOp _).symm, h.busy_len hb o ho⟩

/-! ### A frame command on a block between calls -/

@[simp] theorem decode_encode (i : Instr) : decode (encode i) = i := by cases i <;> rfl

/-- Issue, from a block that is not BUSY. -/
theorem step_issue {es : List Event} {rs : List Reply} (ho : frameOperands i = some o) (hb : s.status.state ≠ .busy)
    (hl : s.len.toNat ≤ capacity s.params o.source) :
    step (s.withHost (.host (ctrlWrite i) :: es) none rs) = .next ((s.issue i).withHost es none rs) := by
  rw [step_first hb]
  show exec (decode (encode i)) _ = _
  rw [decode_encode]
  exact exec_issue (s := s.withHost es none rs) ho hb hl

/-- Completion, at the engine's turn. -/
theorem step_completion {es : List Event} {rs : List Reply} (ho : frameOperands i = some o)
    (hl : s.len.toNat ≤ capacity s.params o.source) :
    step ((s.issue i).withHost (.engine :: es) none rs) =
      .next (((s.issue i).complete o.arity (storeOf i)).withHost es none rs) := by
  have h1 : step ((s.issue i).withHost (.engine :: es) none rs) = engineTurn ((s.issue i).withHost es none rs) :=
    step_busy_engine (s := (s.issue i).withHost (.engine :: es) none rs) rfl rfl
  rw [h1, engineTurn_eq (s := (s.issue i).withHost es none rs) (i := i) rfl (frameOperands_ne_clr ho)]
  exact (exec_complete (s := (s.issue i).withHost es none rs) ho rfl rfl hl).trans (by rw [complete_withHost])

/-- Completion, where nothing else is to come. -/
theorem step_completion_nil {rs : List Reply} (ho : frameOperands i = some o)
    (hl : s.len.toNat ≤ capacity s.params o.source) :
    step ((s.issue i).withHost [] none rs) =
      .next (((s.issue i).complete o.arity (storeOf i)).withHost [] none rs) := by
  rw [step_busy_nil (s := (s.issue i).withHost [] none rs) rfl rfl,
    engineTurn_eq (s := (s.issue i).withHost [] none rs) (i := i) rfl (frameOperands_ne_clr ho)]
  exact (exec_complete (s := (s.issue i).withHost [] none rs) ho rfl rfl hl).trans (by rw [complete_withHost])

/-! ### STATUS reads, and stores made twice -/

/-- STATUS reads while BUSY: each returns the same word and nothing else changes (R155). -/
theorem run_busy_reads {st : Status} (hst : st.state = .busy) (hs : s.status = st) (n : Nat) (rest : List Event)
    (rs : List Reply) :
    run n (s.withHost (List.replicate n (.host (.regRead 0x04)) ++ rest) none rs) =
      .next (s.withHost rest none (rs ++ List.replicate n (.word st.word))) := by
  induction n generalizing rs with
  | zero => simp [run]
  | succ n ih =>
    have h1 : step (s.withHost (.host (.regRead 0x04) :: (List.replicate n (.host (.regRead 0x04)) ++ rest)) none rs) =
        .next (s.withHost (List.replicate n (.host (.regRead 0x04)) ++ rest) none (rs ++ [.word st.word])) := by
      refine (step_busy_status (s := s.withHost _ none rs) (by simp [hs, hst]) rfl rfl).trans ?_
      rw [perform_status, ← hs]
      rfl
    rw [List.replicate_succ, List.cons_append, run_succ_of_next h1, ih]
    simp [List.replicate_succ]

/-- A write that changes nothing leaves the very list. -/
theorem write_read_self {m : Memory} {k : Nat} {b : Byte} (hm : Memory.wf m) (h : Memory.read m k = some b) :
    Memory.write m k b = m := by
  refine eq_of_read_eq (write_wf _ _ hm) hm fun j => ?_
  by_cases hj : j = k
  · rw [hj, read_write_same, h]
  · rw [read_write_of_ne _ _ hj]

/-- Storing the same buffer twice is storing it once. -/
theorem writeRun_twice {m : Memory} {bs : List Byte} (hm : Memory.wf m) :
    Memory.writeRun (Memory.writeRun m 0 bs) 0 bs = Memory.writeRun m 0 bs := by
  refine eq_of_read_eq (writeRun_wf _ _ (writeRun_wf _ _ hm)) (writeRun_wf _ _ hm) fun k => ?_
  simp only [read_writeRun_zero]
  split <;> simp

/-! ### One host action, from a block between calls -/

theorem withHost_between (s : State) (rs : List Reply) : (s.withHost [] none rs).Between := ⟨rfl, rfl⟩

@[simp] theorem andThen_next (t : State) (f : State → Outcome) : andThen (.next t) f = f t := rfl

theorem andThen_eq_next {r : Outcome} {f : State → Outcome} :
    andThen r f = .next u ↔ ∃ t, r = .next t ∧ f t = .next u := by
  cases r <;> simp [andThen]

theorem andThen_assoc (r : Outcome) (f g : State → Outcome) :
    andThen (andThen r f) g = andThen r fun t => andThen (f t) g := by
  cases r <;> rfl

theorem settle_between (k : Nat) (hs : s.Between) : settle k s = .next s := by
  cases k <;> simp [settle, hs.1, hs.2]

theorem settle_step {k : Nat} (h : s.inbox ≠ [] ∨ s.held ≠ none) : settle (k + 1) s = andThen (step s) (settle k) := by
  rw [settle, if_neg (by tauto)]

theorem drain_between (hs : s.Between) : drain s = .next s := settle_between _ hs

/-- Issuing an action on a block between calls. -/
theorem act_eq (a : HostAction) (hs : s.Between) : act a s = settle 5 (s.withHost [.host a] none s.replies) := by
  have h : { s with inbox := [.host a] } = s.withHost [.host a] none s.replies := by
    simp only [State.withHost]; rw [← hs.2]
  rw [act, drain_between hs, andThen_next, drain, hs.1, List.nil_append, h]
  rfl

/-- Outside BUSY an action leaves a block between calls between calls. -/
theorem perform_between {a : HostAction} (hb : s.status.state ≠ .busy) (hs : s.Between) (h : perform a s = .next t) :
    t.Between := by
  rcases perform_cases h with ⟨v, -, h⟩ | ⟨r, v, -, -, rfl⟩ | ⟨r, -, rfl⟩ | ⟨sp, idx, b, -, -, -, rfl⟩ | ⟨idx, b, -, -, rfl⟩ |
    ⟨sp, idx, -, -, rfl⟩ | ⟨-, rfl⟩
  · rcases exec_cases h with ⟨h, -⟩ | ⟨-, -, rfl⟩ | ⟨o, -, -, -, rfl⟩ | ⟨o, -, h, -⟩
    · exact absurd h hb
    · exact ⟨hs.1, hs.2⟩
    · exact ⟨hs.1, hs.2⟩
    · exact absurd h hb
  · exact ⟨by simp [hs.1], by simp [hs.2]⟩
  · exact ⟨hs.1, hs.2⟩
  · exact ⟨by simp [hs.1], by simp [hs.2]⟩
  · exact hs
  · exact ⟨hs.1, hs.2⟩
  · exact ⟨by simp [hs.1], by simp [hs.2]⟩

/-- Outside BUSY the host's action is performed, and that is all. -/
theorem act_free (a : HostAction) (hb : s.status.state ≠ .busy) (hs : s.Between) : act a s = perform a s := by
  rw [act_eq a hs, settle_step (.inl (by simp)), step_first hb, withHost_of_between hs]
  cases h : perform a s with
  | next t => exact settle_between 4 (perform_between hb hs h)
  | fault f => rfl
  | refused r => rfl

/-- While BUSY a STATUS read is answered at once. -/
theorem act_status_busy (hb : s.status.state = .busy) (hs : s.Between) :
    act (.regRead 0x04) s = .next (s.reply (.word s.status.word)) := by
  have h : step (s.withHost [.host (.regRead 0x04)] none s.replies) = .next (s.reply (.word s.status.word)) := by
    rw [step_busy_status (s := s.withHost _ none s.replies) hb rfl rfl, perform_status]
    exact congrArg (fun u : State => Host.Outcome.next (u.reply (.word u.status.word))) (withHost_of_between hs)
  rw [act_eq _ hs, settle_step (.inl (by simp)), h]
  exact settle_between 4 ⟨hs.1, hs.2⟩

theorem finish_free (hb : s.status.state ≠ .busy) (hs : s.Between) : finish s = .next s := by
  rw [finish, drain_between hs, andThen_next, if_neg hb]

theorem finish_busy (hb : s.status.state = .busy) (hs : s.Between) : finish s = step s := by
  rw [finish, drain_between hs, andThen_next, if_pos hb]

/-- The state that the command in progress leaves, with what the host sees of it: any action but a STATUS read and Reset meets
that state, and so does a host that only waits. -/
theorem exists_completed (h : s.Inv) (hb : s.status.state = .busy) (hs : s.Between) :
    ∃ c : State, c.Inv ∧ (c.status.state = .done ∨ c.status.state = .error) ∧ c.Between ∧ c.params = s.params ∧
      DescriptorSame s c ∧ c.replies = s.replies ∧ finish s = .next c ∧
      (∀ rs, finish (s.withHost [] none rs) = .next (c.withHost [] none rs)) ∧
      ∀ a, waitsWhileBusy a = true → act a s = perform a c := by
  obtain ⟨i, o, ho, hop, hl⟩ := exists_command h hb
  have fin (rs) : finish (s.withHost [] none rs) = .next ((s.complete o.arity (storeOf i)).withHost [] none rs) := by
    rw [finish_busy (s := s.withHost [] none rs) hb (withHost_between s rs), step_busy_nil (s := s.withHost [] none rs) hb rfl,
      engineTurn_eq (s := s.withHost [] none rs) (i := i) hop (frameOperands_ne_clr ho)]
    exact (exec_complete (s := s.withHost [] none rs) ho hb hop hl).trans (by rw [complete_withHost])
  have hcs : (s.complete o.arity (storeOf i)).Between := ⟨by simp [hs.1], by simp [hs.2]⟩
  refine ⟨s.complete o.arity (storeOf i), inv_complete ho hop hl h, complete_state _, hcs, complete_params _,
    ⟨complete_width _, complete_height _, complete_len _⟩, complete_replies _, ?_, fin, fun a hw => ?_⟩
  · have := fin s.replies
    rw [withHost_of_between hs] at this
    rw [this, ← complete_replies (s := s) (i := i) o.arity, withHost_of_between hcs]
  · have h1 : step (s.withHost [.host a] none s.replies) = .next (s.withHost [] (some a) s.replies) :=
      step_busy_hold hb rfl rfl hw
    have h2 : step (s.withHost [] (some a) s.replies) =
        .next ((s.complete o.arity (storeOf i)).withHost [] (some a) s.replies) := by
      rw [step_busy_nil (s := s.withHost [] (some a) s.replies) hb rfl,
        engineTurn_eq (s := s.withHost [] (some a) s.replies) (i := i) hop (frameOperands_ne_clr ho)]
      exact (exec_complete (s := s.withHost [] (some a) s.replies) ho hb hop hl).trans (by rw [complete_withHost])
    have h3 : step ((s.complete o.arity (storeOf i)).withHost [] (some a) s.replies) =
        perform a (s.complete o.arity (storeOf i)) := by
      rw [step_free_held (s := (s.complete o.arity (storeOf i)).withHost [] (some a) s.replies) (complete_ne_busy _) rfl,
        ← complete_replies (s := s) (i := i) o.arity]
      exact congrArg (perform a) (withHost_of_between hcs)
    rw [act_eq a hs, settle_step (.inl (by simp)), h1, andThen_next, settle_step (.inr (by simp)), h2, andThen_next,
      settle_step (.inr (by simp)), h3]
    cases hp : perform a (s.complete o.arity (storeOf i)) with
    | next t => exact settle_between 2 (perform_between (complete_ne_busy _) hcs hp)
    | fault f => rfl
    | refused r => rfl

/-- A command line outside BUSY is `exec` of the command. -/
theorem act_command (hb : s.status.state ≠ .busy) (hs : s.Between) : act (ctrlWrite i) s = exec i s := by
  rw [act_free _ hb hs]
  show exec (decode (encode i)) s = _
  rw [decode_encode]

/-- The engine's turn on a command that has just been issued, where nothing else is to come. -/
theorem finish_issue (ho : frameOperands i = some o) (hs : s.Between) (hl : s.len.toNat ≤ capacity s.params o.source) :
    finish (s.issue i) = .next ((s.issue i).complete o.arity (storeOf i)) := by
  rw [finish_busy (s := s.issue i) rfl hs, step_busy_nil (s := s.issue i) rfl hs.1,
    engineTurn_eq (s := s.issue i) (i := i) rfl (frameOperands_ne_clr ho), exec_complete (s := s.issue i) ho rfl rfl hl]

/-! ### Lines -/

theorem runLines_append (p q : List Line) (s : State) : runLines (p ++ q) s = andThen (runLines p s) (runLines q) := by
  induction p generalizing s with
  | nil => rfl
  | cons l p ih =>
    simp only [List.cons_append, runLines, andThen_assoc]
    congr 1
    exact funext ih

/-- `LOAD` into PIX or GRAY on a block that is not BUSY. -/
theorem actAll_load {sp : Space} (hb : s.status.state ≠ .busy) (hs : s.Between) (hsp : sp ≠ .lbpm) (bs : List Byte)
    (k : Nat) (hk : k + bs.length ≤ capacity s.params sp) :
    actAll (loadActions sp k bs) s = .next (s.setMem sp (Memory.writeRun (s.mem sp) k bs)) := by
  induction bs generalizing s k with
  | nil => cases sp <;> rfl
  | cons b bs ih =>
    have hk' : k < capacity s.params sp := by simp only [List.length_cons] at hk; omega
    have h1 : act (.memWrite8 sp k b) s = .next (s.writeByte sp k b) := by
      rw [act_free _ hb hs]
      refine (if_pos hk').trans ?_
      cases sp
      · rfl
      · rfl
      · exact absurd rfl hsp
    rw [loadActions, actAll, h1, andThen_next, ih (by simpa using hb) ⟨by simp [hs.1], by simp [hs.2]⟩ (k + 1)
      (by simp only [List.length_cons, writeByte_params] at hk ⊢; omega)]
    cases sp <;> rfl

/-- The stores of a `LOAD` keep the invariant. -/
theorem inv_load {sp : Space} (bs : List Byte) (k : Nat) (hk : k + bs.length ≤ capacity s.params sp) (h : s.Inv) :
    (s.setMem sp (Memory.writeRun (s.mem sp) k bs)).Inv := by
  induction bs generalizing s k with
  | nil => cases sp <;> exact h
  | cons b bs ih =>
    simp only [List.length_cons] at hk
    have := ih (s := s.writeByte sp k b) (k + 1) (by simp only [writeByte_params]; omega) (inv_writeByte (by omega) h)
    cases sp <;> exact this

/-- `DUMP` on a block that is not BUSY. -/
theorem actAll_dump {sp : Space} (hb : s.status.state ≠ .busy) (n k : Nat) (hk : k + n ≤ capacity s.params sp)
    (rs : List Reply) :
    actAll (dumpActions sp k n) (s.withHost [] none rs) =
      .next (s.withHost [] none (rs ++ (List.range' k n).map fun j => .byte (s.byteAt sp j))) := by
  induction n generalizing k rs with
  | zero => simp [dumpActions, actAll]
  | succ n ih =>
    have hk' : k < capacity s.params sp := by omega
    have h1 : act (.memRead8 sp k) (s.withHost [] none rs) =
        .next (s.withHost [] none (rs ++ [.byte (s.byteAt sp k)])) := by
      rw [act_free (s := s.withHost [] none rs) _ hb (withHost_between s rs)]
      simp only [perform, hostMemRead, withHost_params, if_pos hk', withHost_byteAt]
      rfl
    rw [dumpActions, actAll, h1, andThen_next, ih (k + 1) (by omega)]
    simp [List.range'_succ]

theorem wordState_word (st : Status) : wordState st.word = st.state.code := by
  simp only [wordState, Status.word]
  ext j hj
  rw [BitVec.getElem_extractLsb', BitVec.getLsbD_append]
  simp [hj]

theorem wordErr_word (st : Status) : wordErr st.word = st.err := by
  obtain ⟨st, er, op⟩ := st
  simp only [wordErr, Status.word]
  generalize st.code = c
  revert er op c
  decide

theorem lastReadBusy_reply (st : Status) : (s.reply (.word st.word)).lastReadBusy = decide (st.state = .busy) := by
  simp only [State.lastReadBusy, State.reply, List.getLast?_concat, wordState_word]
  cases st.state <;> rfl

/-- A WAIT on a block that is not BUSY reads STATUS once (R89). -/
theorem wait_free (n : Nat) (hb : s.status.state ≠ .busy) (hs : s.Between) :
    wait n s = .next (s.reply (.word s.status.word)) := by
  cases n with
  | zero => rw [wait, finish_free hb hs, andThen_next]; exact act_free _ hb hs
  | succ n =>
    have h : act (.regRead 0x04) s = .next (s.reply (.word s.status.word)) := act_free _ hb hs
    simp only [wait, regOffset, h, andThen_next, lastReadBusy_reply]
    simp [hb]

/-- A WAIT on a BUSY block reads BUSY as often as the environment lets it, and then the state that the command leaves. -/
theorem wait_busy {c : State} (hb : s.status.state = .busy) (hc : c.status.state ≠ .busy)
    (hf : ∀ rs, finish (s.withHost [] none rs) = .next (c.withHost [] none rs)) (n : Nat) (rs : List Reply) :
    wait n (s.withHost [] none rs) =
      .next (c.withHost [] none (rs ++ List.replicate n (.word s.status.word) ++ [.word c.status.word])) := by
  induction n generalizing rs with
  | zero =>
    rw [wait, hf, andThen_next, regOffset, act_free (s := c.withHost [] none rs) _ hc (withHost_between c rs)]
    simp [perform_status, State.reply, State.withHost]
  | succ n ih =>
    have h : act (.regRead 0x04) (s.withHost [] none rs) = .next ((s.withHost [] none rs).reply (.word s.status.word)) :=
      act_status_busy (s := s.withHost [] none rs) hb (withHost_between s rs)
    simp only [wait, regOffset, h, andThen_next, lastReadBusy_reply, hb, decide_true, if_true]
    rw [show (s.withHost [] none rs).reply (.word s.status.word) = s.withHost [] none (rs ++ [.word s.status.word]) from rfl,
      ih]
    simp [List.replicate_succ]


/-! ### From any state: what is to come takes place -/

/-- How many steps what is to come takes at most. -/
def State.movesLeft (s : State) : Nat :=
  3 * s.inbox.length + if s.held = none then 0 else if s.status.state = .busy then 2 else 1

/-- The engine's turn takes the block out of BUSY and does not reach into the host's side. -/
theorem engineTurn_next (hb : s.status.state = .busy) (h : engineTurn s = .next t) :
    t.status.state ≠ .busy ∧ t.inbox = s.inbox ∧ t.held = s.held ∧ t.replies = s.replies := by
  by_cases h0 : s.status.op = 0
  · simp [engineTurn, h0] at h
  · rw [engineTurn_of_ne h0] at h
    have hop : (Instr.ofOp s.status.op).op = s.status.op := op_ofOp _
    rcases exec_cases h with ⟨-, hc, -⟩ | ⟨hn, -⟩ | ⟨o, -, hn, -⟩ | ⟨o, -, -, -, -, rfl⟩
    · exact absurd hop.symm (hc.resolve_left fun hi => h0 (by rw [← hop, hi]; rfl))
    · exact absurd hb hn
    · exact absurd hb hn
    · exact ⟨complete_ne_busy _, complete_inbox _, complete_held _, complete_replies _⟩

/-- An action that takes effect leaves nothing new to come. -/
theorem perform_movesLeft {a : HostAction} (h : perform a s = .next t)
    (hw : (s.status.state ≠ .busy ∧ s.held = none) ∨ (a = .regRead 0x04 ∧ s.held = none) ∨ a = .reset) :
    t.movesLeft ≤ s.movesLeft := by
  rcases perform_cases h with ⟨v, rfl, h⟩ | ⟨r, v, -, -, rfl⟩ | ⟨r, -, rfl⟩ | ⟨sp, idx, b, -, -, -, rfl⟩ | ⟨idx, b, -, -, rfl⟩ |
    ⟨sp, idx, -, -, rfl⟩ | ⟨-, rfl⟩
  · obtain ⟨hb, hh⟩ | ⟨hc, -⟩ | hc := hw
    · rcases exec_cases h with ⟨h, -⟩ | ⟨-, -, rfl⟩ | ⟨o, -, -, -, rfl⟩ | ⟨o, -, h, -⟩
      · exact absurd h hb
      · simp [State.movesLeft, State.clear, hh]
      · simp [State.movesLeft, State.issue, hh]
      · exact absurd h hb
    · cases hc
    · cases hc
  all_goals try exact le_refl _
  · cases r <;> exact le_refl _
  · cases sp <;> exact le_refl _
  · simp only [State.movesLeft, resetBlock_inbox, resetBlock_held, resetBlock_status]
    by_cases hh : s.held = none
    · simp [hh]
    · split_ifs <;> simp_all

/-- The engine's turn that takes nothing from the inbox of a block between no calls comes because an action is held. -/
theorem held_of_engine (hm : s.nextMove = (.engine, s)) (hb : s.status.state = .busy) (hs : ¬ s.Between) :
    s.held ≠ none := by
  intro hh
  simp only [State.nextMove, if_pos hb, State.busyMove] at hm
  split at hm
  · next hi => exact hs ⟨hi, hh⟩
  · next rest hi => exact absurd (congrArg (fun m => m.2.inbox.length) hm) (by simp [hi])
  · simp only [hh] at hm
    split at hm
    · cases congrArg Prod.fst hm
    · simp only [ne_eq, not_true_eq_false, if_false] at hm
      split at hm <;> cases congrArg Prod.fst hm

/-- Where something is to come, a step takes some of it. -/
theorem step_movesLeft (h : step s = .next t) (hs : ¬ s.Between) : t.movesLeft < s.movesLeft := by
  have popped {e : Event} {es : List Event} (hi : s.inbox = e :: es) :
      State.movesLeft { s with inbox := es } + 3 = s.movesLeft := by
    simp only [State.movesLeft, hi, List.length_cons]; omega
  rcases nextMove_cases s with ⟨es, hm, hb, hi⟩ | ⟨es, hm, hi⟩ | ⟨a, es, hm, hi, hh, hw⟩ | ⟨a, hm, hb, hh⟩ |
    ⟨a, es, hm, hb, hh, hi, -⟩ | ⟨es, hm, hb, hh, hi⟩ <;> rw [step_of_nextMove hm] at h <;> simp only [makeMove] at h
  · obtain ⟨ht, hti, hth, -⟩ := engineTurn_next (s := { s with inbox := es }) hb h
    simp only [State.movesLeft, hti, hth, if_neg ht, if_pos hb]
    rcases hi with rfl | hi
    · simp [held_of_engine hm hb hs]
    · simp only [hi, List.length_cons]; split <;> omega
  · have := perform_movesLeft h (.inr (.inr rfl)); have := popped hi; omega
  · have := perform_movesLeft h (by by_cases hb : s.status.state = .busy <;> simp [hb, hh, hw]); have := popped hi; omega
  · have := perform_movesLeft h (.inl ⟨hb, rfl⟩)
    simp only [State.movesLeft, hh] at this ⊢
    simp [hb] at this ⊢; omega
  · cases h; simp only [State.movesLeft, hi, hb, hh, List.length_cons]; simp; omega
  · cases h
    rcases hi with ⟨hi, -⟩ | hi
    · exact absurd ⟨hi, hh⟩ hs
    · have := popped hi; omega

/-- Steps enough for what is to come leave nothing to come. -/
theorem between_of_settle {k : Nat} (h : settle k s = .next t) (hk : s.movesLeft ≤ k) : t.Between := by
  induction k generalizing s with
  | zero =>
    cases h
    simp only [State.movesLeft] at hk
    refine ⟨List.length_eq_zero_iff.mp (by omega), ?_⟩
    by_contra hh
    simp only [if_neg hh] at hk
    split at hk <;> omega
  | succ k ih =>
    rw [settle] at h
    split at h
    · next hs => cases h; exact hs
    · next hs =>
      obtain ⟨u, hu, h⟩ := andThen_eq_next.mp h
      have := step_movesLeft hu hs
      exact ih h (by omega)

theorem between_of_drain (h : drain s = .next t) : t.Between := by
  refine between_of_settle h ?_
  simp only [State.movesLeft]
  split <;> [skip; split] <;> omega

theorem between_of_act {a : HostAction} (h : act a s = .next t) : t.Between := by
  obtain ⟨u, -, h⟩ := andThen_eq_next.mp h
  exact between_of_drain h

/-- A host that issues nothing more meets a block that is not BUSY, whatever was to come. -/
theorem finish_next (h : finish s = .next t) : t.Between ∧ t.status.state ≠ .busy := by
  obtain ⟨u, hu, h⟩ := andThen_eq_next.mp h
  have hs := between_of_drain hu
  split at h
  · next hb =>
    rw [step_busy_nil hb hs.1] at h
    obtain ⟨ht, hi, hh, -⟩ := engineTurn_next hb h
    exact ⟨⟨hi.trans hs.1, hh.trans hs.2⟩, ht⟩
  · next hb => cases h; exact ⟨hs, hb⟩

/-- A STATUS read of a block between calls is answered at once, BUSY or not. -/
theorem act_status (hs : s.Between) : act (.regRead 0x04) s = .next (s.reply (.word s.status.word)) := by
  by_cases hb : s.status.state = .busy
  · exact act_status_busy hb hs
  · exact act_free _ hb hs

theorem andThen_drain {f g : State → Outcome} (h : ∀ u, u.Between → f u = g u) :
    andThen (drain s) f = andThen (drain s) g := by
  cases hd : drain s with
  | next u => exact h u (between_of_drain hd)
  | fault e => rfl
  | refused r => rfl

/-- What is to come takes place before the host's next action, -/
theorem act_drain (a : HostAction) (s : State) : act a s = andThen (drain s) (act a) := by
  conv_lhs => rw [act]
  exact andThen_drain fun u hu => by rw [act, drain_between hu, andThen_next]

/-- and before the host stops issuing any, -/
theorem finish_drain (s : State) : finish s = andThen (drain s) finish := by
  conv_lhs => rw [finish]
  exact andThen_drain fun u hu => by rw [finish, drain_between hu, andThen_next]

/-- and before a WAIT. -/
theorem wait_drain (n : Nat) (s : State) : wait n s = andThen (drain s) (wait n) := by
  cases n with
  | zero => rw [wait, finish_drain, andThen_assoc]; rfl
  | succ n => rw [wait, act_drain, andThen_assoc]; rfl

end Sys2Proof.Machine
end

