-- ==== Sys2Proof/Tests/Slice0.lean ====
section
/-! SUPPORT. Tests. Expected values come from spec/95_test_vectors.md (V1 to V13, P1 to P6) or from the rule named, never
from a run of the model. The theorems named `witness_…` show a state and operands that meet the hypotheses of an obligation. -/

namespace Sys2Proof.Tests

open Sys2Proof.Machine

/-! ### Helpers -/

/-- A block of `n` pixels with the default weighting. -/
def params1 : Params := { luma := lumaDefault, maxPix := 1, maxPix_pos := by decide, maxPix_le := by decide }
def params9 : Params := { luma := lumaDefault, maxPix := 9, maxPix_pos := by decide, maxPix_le := by decide }

/-- The state after Reset of a small block, with STATUS and the descriptor set. -/
def at1 (st : Status) (w h n : Nat) : State :=
  { State.reset with
    params := params1, status := st
    width := BitVec.ofNat 32 w, height := BitVec.ofNat 32 h, len := BitVec.ofNat 32 n }

def at9 (st : Status) (w h n : Nat) : State := { at1 st w h n with params := params9 }

/-- PROC has failed the check. -/
def failed1 : State := at1 ⟨.error, 2, 3⟩ 1 1 3

def bytes (l : List Nat) : List Byte := l.map (BitVec.ofNat 8)

def memory (l : List Nat) : Memory := Memory.writeRun [] 0 (bytes l)

def cellsOf (l : List Nat) (i : Nat) : Byte := BitVec.ofNat 8 (l.getD i 0)

/-- The next state of an outcome. -/
def after : Outcome → Option State
  | .next t => some t
  | .fault _ => none
  | .refused _ => none

def refusal : Outcome → Option Refusal
  | .next _ => none
  | .fault _ => none
  | .refused r => some r

def isNext (o : Outcome) : Bool := (after o).isSome

/-! ### Well-formedness -/

theorem test_every_command_is_wf : ([.clr, .gray, .lbp, .proc] : List Instr).all Instr.wf = true := by decide

/-- Offset 0x18 and offsets that are not multiples of 4 are ill-formed (R22). -/
theorem test_offset_0x18_refused : regOffsetWf 0x18 = false := by decide
theorem test_offset_0x06_refused : regOffsetWf 0x06 = false := by decide
theorem test_offset_0x14_accepted : regOffsetWf 0x14 = true := by decide

/-- The first index past each memory is ill-formed (R50). -/
theorem test_pix_index_refused : cellWf params1 .pix 4 = false ∧ cellWf params1 .pix 3 = true := by decide
theorem test_gray_index_refused : cellWf params1 .gray 1 = false ∧ cellWf params1 .gray 0 = true := by decide
theorem test_lbpm_index_refused : cellWf params1 .lbpm 1 = false ∧ cellWf params1 .lbpm 0 = true := by decide

theorem test_ill_formed_actions_refused :
    (HostAction.regRead 0x02).wf params1 = false ∧ (HostAction.regWrite 0x20 0).wf params1 = false ∧
    (HostAction.memRead8 .gray 7).wf params1 = false ∧ (HostAction.memWrite8 .pix 4 0).wf params1 = false ∧
    HostAction.reset.wf params1 = true := by decide

/-- A Message is a valid request at four bytes a pixel and a valid response at one (R170). -/
theorem test_ill_formed_messages_refused :
    (Message.mk 1 1 (bytes [1, 2, 3])).validRequest = false ∧ (Message.mk 1 1 (bytes [1, 2, 3, 4])).validRequest = true ∧
    (Message.mk 1 1 (bytes [1, 2])).validResponse = false ∧ (Message.mk 1 1 (bytes [1])).validResponse = true := by decide

/-- A Message of 2^32 bytes cannot be presented (R87). -/
theorem test_unpresentable_message_refused : (Message.mk 0 0 (List.replicate (2 ^ 32) 0)).presentable = false := by
  simp only [Message.presentable, List.length_replicate, Nat.lt_irrefl, decide_false]

/-! ### Decoding: words written out from R80 -/

theorem test_decode_clr : decode 0b00000000000000000000000000000000#32 = .clr := by decide
theorem test_decode_gray : decode 0b00000000000000000000000000000001#32 = .gray := by decide
theorem test_decode_lbp : decode 0b00000000000000000000000000000010#32 = .lbp := by decide
theorem test_decode_proc : decode 0b00000000000000000000000000000011#32 = .proc := by decide
/-- The reserved bits are ignored (R82). -/
theorem test_decode_reserved_bits :
    decode 0b11111111111111111111111111111100#32 = .clr ∧ decode 0b11111111111111111111111111111101#32 = .gray ∧
    decode 0b10101010101010101010101010101010#32 = .lbp ∧ decode 0b00000000000000000000000000000111#32 = .proc := by decide
theorem test_encode_writes_zero_in_reserved_bits :
    encode .clr = 0x00000000 ∧ encode .gray = 0x00000001 ∧ encode .lbp = 0x00000002 ∧ encode .proc = 0x00000003 := by decide
theorem test_table_word_decodes :
    decodeTableWord 32 0xFFFFFFFE = some .lbp ∧ decodeTableWord 32 3 = some .proc := by decide
/-- There are no compressed and no longer forms (R83). -/
theorem test_other_lengths_refused :
    decodeTableWord 31 3 = none ∧ decodeTableWord 33 3 = none ∧ decodeTableWord 8 3 = none ∧ decodeTableWord 0 0 = none := by decide
theorem test_decode_error_is_named : (match decodeBits 40 0 with | .ok _ => none | .error e => some e) = some .notOneWord := by
  decide

/-! ### The two units -/

/-- V4: LUMA_DEFAULT. -/
theorem test_luma_default :
    [luma lumaDefault 255 0 0, luma lumaDefault 0 255 0, luma lumaDefault 0 0 255, luma lumaDefault 255 255 0,
      luma lumaDefault 200 100 50, luma lumaDefault 4 0 0, luma lumaDefault 5 0 0, luma lumaDefault 254 255 255] =
    bytes [54, 182, 18, 236, 117, 0, 1, 254] := by decide

/-- V4: the default weights with NEAREST, and LUMA_BT601. -/
theorem test_luma_nearest :
    [luma { lumaDefault with rnd := .nearest } 255 255 0, luma { lumaDefault with rnd := .nearest } 0 1 0,
      luma { lumaDefault with rnd := .nearest } 123 45 67] = bytes [237, 1, 63] := by decide
theorem test_luma_bt601 :
    [luma lumaBt601 255 0 0, luma lumaBt601 0 255 0, luma lumaBt601 255 0 255, luma lumaBt601 123 45 67] =
    bytes [76, 149, 105, 70] := by decide

/-- V5, V6: alpha is ignored, and pixel `p` becomes byte `p`. -/
theorem test_gray_fn_two_pixels :
    grayFn lumaDefault 2 1 (cellsOf [0xFF, 0, 0, 0xFF, 0, 0xFF, 0, 0]) = bytes [0x36, 0xB6] := by decide
theorem test_gray_fn_empty : grayFn lumaDefault 0 0 (cellsOf []) = [] := by decide

/-- V1, Scenario A: ties set bits. -/
theorem test_lbp_scenario_a :
    lbpFn 3 3 (cellsOf [255, 255, 255, 255, 0, 0, 0, 255, 255]) = bytes [0, 0, 0, 0, 0xFF, 0, 0, 0, 0] := by decide
/-- V2, Scenario B: row-major, clockwise, neighbour 0 in bit 7. -/
theorem test_lbp_scenario_b :
    lbpFn 3 3 (cellsOf [48, 26, 105, 82, 56, 12, 64, 7, 32]) = bytes [0, 0, 0, 0, 0x23, 0, 0, 0, 0] := by decide
/-- V8, row 5: mixed ties. -/
theorem test_lbp_mixed_ties : lbpCell 3 3 (cellsOf [55, 56, 57, 56, 56, 56, 57, 56, 55]) 1 1 = 0x77 := by decide
/-- V8, row 4: only the corners. -/
theorem test_lbp_corners : lbpCell 3 3 (cellsOf [255, 0, 255, 0, 255, 0, 255, 0, 255]) 1 1 = 0xAA := by decide
/-- V9: a frame that is not square. -/
theorem test_lbp_five_by_four :
    lbpFn 5 4 (cellsOf [12, 200, 34, 90, 7, 56, 56, 80, 13, 250, 0, 99, 56, 100, 41, 255, 17, 63, 64, 65]) =
    bytes [0, 0, 0, 0, 0, 0, 0x5D, 0xAA, 0xDF, 0, 0, 0x02, 0xDD, 0x20, 0, 0, 0, 0, 0, 0] := by decide
/-- V10: no interior cell. -/
theorem test_lbp_degenerate : lbpFn 5 2 (cellsOf [1, 2, 3, 4, 5, 6, 7, 8, 9, 10]) = List.replicate 10 0 := by decide

/-! ### The frame check, V11 -/

theorem test_validate_passes : validate 4 3 3 36 = none ∧ validate 1 3 3 9 = none := by decide
theorem test_validate_mismatch :
    validate 4 3 3 35 = some .dimensionMismatch ∧ validate 4 3 3 9 = some .dimensionMismatch ∧
    validate 1 3 3 36 = some .dimensionMismatch ∧ validate 4 0 5 20 = some .dimensionMismatch := by decide
theorem test_validate_empty : validate 4 0 5 0 = some .invalidDimensions ∧ validate 1 7 0 0 = some .invalidDimensions := by
  decide
/-- Products that would wrap to 32 or 64 bits. -/
theorem test_validate_does_not_wrap :
    validate 4 65536 65536 0 = some .dimensionMismatch ∧ validate 4 4294967295 4294967295 4 = some .dimensionMismatch ∧
    validate 4 2147483648 2147483648 0 = some .dimensionMismatch := by decide

/-! ### The commands, one step each -/

/-- R153's worked example: from 0x00000323, CLR gives STATUS = 0 and OUTLEN = 0. -/
theorem test_clr_from_error :
    (after (exec .clr (at9 ⟨.error, 2, 3⟩ 3 3 35))).map (fun t => (t.status.word, t.outlen, t.width, t.len)) =
    some (0x00000000, 0, 3, 35) := by decide

/-- R117's worked example. -/
theorem test_gray_completes :
    (after (exec .gray { at9 ⟨.busy, 0, 1⟩ 2 1 8 with pix := memory [0xFF, 0, 0, 0xFF, 0, 0xFF, 0, 0] })).map
      (fun t => (t.status.word, t.outlen, t.gray, t.lbpm)) =
    some (0x00000102, 2, memory [0x36, 0xB6], []) := by rfl

/-- V11: GRAY at a wrong length. -/
theorem test_gray_mismatch :
    (after (exec .gray (at9 ⟨.busy, 0, 1⟩ 2 1 7))).map (fun t => (t.status.word, t.outlen, t.gray)) =
    some (0x00000123, 0, []) := by decide

/-- R141's worked example (Scenario B). -/
theorem test_lbp_completes :
    (after (exec .lbp { at9 ⟨.busy, 0, 2⟩ 3 3 9 with gray := memory [48, 26, 105, 82, 56, 12, 64, 7, 32] })).map
      (fun t => (t.status.word, t.outlen, t.lbpm)) =
    some (0x00000202, 9, memory [0, 0, 0, 0, 0x23, 0, 0, 0, 0]) := by decide

/-- V11: LBP on an empty frame. -/
theorem test_lbp_empty_frame :
    (after (exec .lbp (at9 ⟨.busy, 0, 2⟩ 7 0 0))).map (fun t => (t.status.word, t.outlen)) = some (0x00000233, 0) := by decide

/-- R152's worked example (P2). -/
theorem test_proc_completes :
    (after (exec .proc { at9 ⟨.busy, 0, 3⟩ 3 3 36 with
      pix := memory ([48, 26, 105, 82, 56, 12, 64, 7, 32].flatMap fun v => [v, v, v, 255]) })).map
      (fun t => (t.status.word, t.outlen, t.gray, t.lbpm)) =
    some (0x00000302, 9, memory [48, 26, 105, 82, 56, 12, 64, 7, 32], memory [0, 0, 0, 0, 0x23, 0, 0, 0, 0]) := by rfl

/-- P4, line 1: PROC straight after Reset is issued; R150. -/
theorem test_proc_issues :
    (after (step (State.reset.withFetchWord 32 0xFFFFFFFF))).map (fun t => (t.status.word, t.outlen)) =
    some (0x00000301, 0) := by decide

/-! ### The host's side -/

/-- R154: a CTRL write while BUSY waits, a STATUS read does not. -/
theorem test_ctrl_write_waits :
    (after (step { at1 ⟨.busy, 0, 1⟩ 1 1 4 with inbox := [.host (.regWrite 0x00 0)] })).map
      (fun t => (t.status.word, t.held)) = some (0x00000101, some (.regWrite 0x00 0)) := by decide
theorem test_status_read_does_not_wait :
    (after (step { at1 ⟨.busy, 0, 1⟩ 1 1 4 with inbox := [.host (.regRead 0x04)] })).map
      (fun t => (t.replies, t.held)) = some ([.word 0x00000101], none) := by decide
/-- R89: outside BUSY a WAIT reads STATUS once, whatever number of BUSY reads it allows. -/
theorem test_wait_reads_once_outside_busy :
    (after (runLine (.wait 3) failed1)).map (fun t => t.replies) = some [.word 0x00000323] := by decide
/-- R89, P1 line 14: "zero or more reads of 0x00000201, then 0x00000202". -/
theorem test_wait_reads_until_done :
    (after (runLine (.wait 2) { at1 ⟨.busy, 0, 2⟩ 1 1 1 with gray := memory [9] })).map (fun t => t.replies) =
    some [.word 0x00000201, .word 0x00000201, .word 0x00000202] := by decide
/-- R89: a WAIT behind a command that is still to come waits for that command (R192: a frame of 0 x 0). -/
theorem test_wait_behind_a_command :
    (after (runLine (.wait 0) (State.reset.withFetchWord 32 3))).map (fun t => t.replies) = some [.word 0x00000333] := by decide
/-- R87: after GRAY the response is read from GRAY, after LBP from LBPM (V6 row 1, V10 row 1). -/
theorem test_gray_call :
    (callCommand .gray 1 ⟨1, 1, bytes [0x0A, 0x14, 0x1E, 0x80]⟩ (at1 ⟨.idle, 0, 0⟩ 0 0 0)).1 = .ok ⟨1, 1, bytes [0x12]⟩ := by rfl
theorem test_lbp_call :
    (callCommand .lbp 0 ⟨1, 1, bytes [1]⟩ (at1 ⟨.idle, 0, 0⟩ 0 0 0)).1 = .ok ⟨1, 1, bytes [0]⟩ := by rfl
/-- R40: a write to LBPM changes nothing; R22: a write to STATUS or OUTLEN is ignored. -/
theorem test_ignored_writes :
    after (perform (.memWrite8 .lbpm 0 7) (at1 ⟨.idle, 0, 0⟩ 1 1 4)) = some (at1 ⟨.idle, 0, 0⟩ 1 1 4) ∧
    after (perform (.regWrite 0x04 7) (at1 ⟨.idle, 0, 0⟩ 1 1 4)) = some (at1 ⟨.idle, 0, 0⟩ 1 1 4) ∧
    after (perform (.regWrite 0x14 7) (at1 ⟨.idle, 0, 0⟩ 1 1 4)) = some (at1 ⟨.idle, 0, 0⟩ 1 1 4) := by decide
/-- 93 U1, U4, U5. -/
theorem test_undefined_actions_refused :
    refusal (exec .lbp (at1 ⟨.idle, 0, 0⟩ 1 1 2)) = some .lenAboveCapacity ∧
    refusal (perform (.regRead 0x18) State.reset) = some .noSuchRegister ∧
    refusal (perform (.memRead8 .gray 1) (at1 ⟨.idle, 0, 0⟩ 1 1 1)) = some .noSuchCell := by decide
/-- P6: Reset clears the registers and unwrites the memories. -/
theorem test_reset_clears :
    (after (perform .reset { at1 ⟨.done, 0, 2⟩ 1 1 1 with outlen := 1, gray := memory [5], lbpm := memory [0] })).map
      (fun t => (t.status.word, t.width, t.outlen, t.gray, t.lbpm)) = some (0, 0, 0, [], []) := by rfl

/-- V12: three of the STATUS words. -/
theorem test_status_words :
    (Status.mk .busy 0 3).word = 0x00000301 ∧ (Status.mk .done 0 1).word = 0x00000102 ∧
    (Status.mk .error 3 2).word = 0x00000233 := by decide

/-- The canonical form refuses a list out of order and one with an index twice. -/
theorem test_memory_form :
    ¬ Memory.wf [(1, 0), (0, 0)] ∧ ¬ Memory.wf [(0, 0), (0, 1)] ∧ Memory.wf (Memory.write (memory [1, 2]) 1 9) := by decide
theorem test_reset_memory_wf : Memory.wf State.reset.pix ∧ Memory.wf State.reset.gray ∧ Memory.wf State.reset.lbpm := by decide

/-- P5: the reference codec. -/
theorem test_ref_codec_encodes :
    refEncode ⟨1, 1, bytes [0]⟩ = bytes [1, 0, 0, 0, 1, 0, 0, 0, 1, 0, 0, 0, 0] := by decide
theorem test_ref_codec_refuses :
    refDecode (bytes [1, 0, 0, 0, 1, 0, 0, 0, 4, 0, 0]) = none ∧
    refDecode (bytes [1, 0, 0, 0, 1, 0, 0, 0, 4, 0, 0, 0, 1, 2, 3]) = none ∧
    refDecode (bytes [0, 0, 0, 0, 0, 0, 0, 0, 0, 0, 0, 0, 7]) = none := by decide

/-! ### States that the witnesses use -/

/-- Idle after Reset, between two calls. -/
def idle1 : State := at1 ⟨.idle, 0, 0⟩ 1 1 4
/-- GRAY in progress on one pixel that the host has written; LEN is at the capacity of PIX. -/
def busy1 : State := { at1 ⟨.busy, 0, 1⟩ 1 1 4 with pix := memory [10, 20, 30, 255] }
/-- GRAY done on one pixel; OUTLEN is at the capacity of GRAY. -/
def done1 : State := { at1 ⟨.done, 0, 1⟩ 1 1 4 with outlen := 1, gray := memory [18] }

theorem idle1_inv : idle1.Inv where
  wf sp := by cases sp <;> decide
  within sp := by cases sp <;> decide
  err_iff := by decide
  err_legal := by decide
  op_iff := by decide
  outlen_zero := by decide
  outlen_bounds := by decide
  result_written h := absurd h (by decide)
  busy_len h := absurd h (by decide)
  held_waits a h := absurd h (Option.some_ne_none a).symm

theorem busy1_inv : busy1.Inv where
  wf sp := by cases sp <;> decide
  within sp := by cases sp <;> decide
  err_iff := by decide
  err_legal := by decide
  op_iff := by decide
  outlen_zero := by decide
  outlen_bounds := by decide
  result_written h := absurd h (by decide)
  busy_len _ o ho := by cases ho; decide
  held_waits a h := absurd h (Option.some_ne_none a).symm

theorem done1_inv : done1.Inv where
  wf sp := by cases sp <;> decide
  within sp := by cases sp <;> decide
  err_iff := by decide
  err_legal := by decide
  op_iff := by decide
  outlen_zero := by decide
  outlen_bounds := by decide
  result_written _ := by decide
  busy_len h := absurd h (by decide)
  held_waits a h := absurd h (Option.some_ne_none a).symm

theorem failed1_inv : failed1.Inv where
  wf sp := by cases sp <;> decide
  within sp := by cases sp <;> decide
  err_iff := by decide
  err_legal := by decide
  op_iff := by decide
  outlen_zero := by decide
  outlen_bounds := by decide
  result_written h := absurd h (by decide)
  busy_len h := absurd h (by decide)
  held_waits a h := absurd h (Option.some_ne_none a).symm

/-! ### Witnesses: commands -/

/-- The lengths on both sides of 32. -/
theorem witness_DecodeOfEncodeWithAnyReservedBits : (31 : Nat) ≠ 32 ∧ (33 : Nat) ≠ 32 ∧ (0 : Nat) ≠ 32 := by decide

theorem witness_StepRunsTheDecodedCommand_inbox :
    ∃ (s : State) (v : Word) (rest : List Event), s.status.state ≠ .busy ∧ s.held = none ∧
      s.inbox = .host (.regWrite 0x00 v) :: rest :=
  ⟨{ done1 with inbox := [.host (.regWrite 0x00 3)] }, 3, [], by decide⟩

theorem witness_StepRunsTheDecodedCommand_held :
    ∃ (s : State) (v : Word), s.status.state ≠ .busy ∧ s.held = some (.regWrite 0x00 v) :=
  ⟨{ failed1 with held := some (.regWrite 0x00 0xFFFFFFFD) }, 0xFFFFFFFD, by decide⟩

theorem witness_EngineTurnRunsTheCommandInProgress_placed :
    ∃ (i : Instr) (s : State) (rest : List Event), s.status.state = .busy ∧ s.status.op = i.op ∧ i ≠ .clr ∧
      s.inbox = .engine :: rest :=
  ⟨.gray, { busy1 with inbox := [.engine] }, [], by decide⟩

theorem witness_EngineTurnRunsTheCommandInProgress_empty :
    ∃ (i : Instr) (s : State), s.status.state = .busy ∧ s.status.op = i.op ∧ i ≠ .clr ∧ s.inbox = [] :=
  ⟨.proc, at1 ⟨.busy, 0, 3⟩ 1 1 4, by decide⟩

theorem witness_EngineTurnRunsTheCommandInProgress_held :
    ∃ (i : Instr) (s : State) (a : HostAction) (rest : List Event), s.status.state = .busy ∧ s.status.op = i.op ∧
      i ≠ .clr ∧ s.held ≠ none ∧ s.inbox = .host a :: rest ∧ a ≠ .reset :=
  ⟨.lbp, { at1 ⟨.busy, 0, 2⟩ 1 1 1 with held := some (.regRead 0x14), inbox := [.host (.regRead 0x04)] }, .regRead 0x04, [],
    by decide⟩

theorem witness_PlacedWordRunsNext : ∃ s : State, s.status.state ≠ .busy := ⟨failed1, by decide⟩

/-- LEN at the capacity of the source memory, from each of IDLE, DONE and ERROR. -/
theorem witness_FrameCommandsIssue :
    (∃ o, frameOperands .gray = some o ∧ idle1.status.state ≠ .busy ∧ idle1.len.toNat = capacity idle1.params o.source) ∧
    (∃ o, frameOperands .proc = some o ∧ done1.status.state ≠ .busy ∧ done1.len.toNat = capacity done1.params o.source) ∧
    (∃ o, frameOperands .lbp = some o ∧ (at1 ⟨.error, 3, 2⟩ 0 7 1).status.state ≠ .busy ∧
      (at1 ⟨.error, 3, 2⟩ 0 7 1).len.toNat = capacity params1 o.source) :=
  ⟨⟨_, rfl, by decide⟩, ⟨_, rfl, by decide⟩, ⟨_, rfl, by decide⟩⟩

theorem witness_FrameCommandsIssue_hold :
    ∃ (s : State) (v : Word) (rest : List Event), s.status.state = .busy ∧ s.held = none ∧
      s.inbox = .host (.regWrite 0x00 v) :: rest :=
  ⟨{ busy1 with inbox := [.host (.regWrite 0x00 2)] }, 2, [], by decide⟩

theorem witness_ClrReturnsToIdle : done1.status.state ≠ .busy ∧ idle1.Inv ∧ idle1.status.state = .idle :=
  ⟨by decide, idle1_inv, by decide⟩

theorem witness_CommandWhileAnotherRunsIsHeld :
    busy1.status.state = .busy ∧ busy1.status.op ≠ Instr.clr.op ∧ busy1.status.op ≠ Instr.proc.op ∧ busy1.held = none := by
  decide

/-- One pixel, LEN at the capacity of PIX. -/
theorem witness_GrayCompletes :
    busy1.status.state = .busy ∧ busy1.status.op = 1 ∧ busy1.len.toNat = 4 * busy1.params.maxPix ∧
    busy1.len.toNat = 4 * busy1.area ∧ 1 ≤ busy1.width.toNat ∧ 1 ≤ busy1.height.toNat := by decide

/-- A 3 by 3 frame, which has an interior cell, at the capacity of GRAY. -/
theorem witness_LbpCompletes :
    ∃ s : State, s.status.state = .busy ∧ s.status.op = 2 ∧ s.len.toNat = s.params.maxPix ∧ s.len.toNat = s.area ∧
      1 ≤ s.width.toNat ∧ 1 ≤ s.height.toNat :=
  ⟨at9 ⟨.busy, 0, 2⟩ 3 3 9, by decide⟩

theorem witness_ProcCompletes :
    ∃ s : State, s.status.state = .busy ∧ s.status.op = 3 ∧ s.len.toNat = 4 * s.params.maxPix ∧
      s.len.toNat = 4 * s.area ∧ 1 ≤ s.width.toNat ∧ 1 ≤ s.height.toNat :=
  ⟨at9 ⟨.busy, 0, 3⟩ 3 3 36, by decide⟩

theorem witness_FailedCheckEntersError_mismatch :
    ∃ (i : Instr) (o : FrameOperands) (s : State), frameOperands i = some o ∧ s.status.state = .busy ∧
      s.status.op = i.op ∧ s.len.toNat ≤ capacity s.params o.source ∧
      s.len.toNat ≠ s.width.toNat * s.height.toNat * o.arity :=
  ⟨.proc, _, at9 ⟨.busy, 0, 3⟩ 3 3 35, rfl, by decide⟩

theorem witness_FailedCheckEntersError_empty :
    ∃ (i : Instr) (o : FrameOperands) (s : State), frameOperands i = some o ∧ s.status.state = .busy ∧
      s.status.op = i.op ∧ s.len.toNat ≤ capacity s.params o.source ∧
      s.len.toNat = s.width.toNat * s.height.toNat * o.arity ∧ (s.width.toNat = 0 ∨ s.height.toNat = 0) :=
  ⟨.lbp, _, at9 ⟨.busy, 0, 2⟩ 7 0 0, rfl, by decide⟩

/-- One frame for each row of R200's table. -/
theorem witness_FrameCheckCoversAllCases :
    ∃ r1 r2 r3 r4 r5 : Word × Word × Word,
      (1 ≤ r1.1.toNat ∧ 1 ≤ r1.2.1.toNat ∧ r1.2.2.toNat = r1.1.toNat * r1.2.1.toNat * 4) ∧
      (1 ≤ r2.1.toNat ∧ 1 ≤ r2.2.1.toNat ∧ r2.2.2.toNat ≠ r2.1.toNat * r2.2.1.toNat * 1) ∧
      ((r3.1.toNat = 0 ∨ r3.2.1.toNat = 0) ∧ r3.2.2.toNat = 0) ∧
      ((r4.1.toNat = 0 ∨ r4.2.1.toNat = 0) ∧ r4.2.2.toNat ≠ 0) ∧
      2 ^ 32 ≤ r5.1.toNat * r5.2.1.toNat * 1 :=
  ⟨(1, 1, 4), (1, 1, 2), (0, 5, 0), (7, 0, 1), (65536, 65536, 0), by decide⟩

/-- LEN one above the capacity of each source memory, at issue and while in progress. -/
theorem witness_OversizedLenIsRefused :
    (∃ o, frameOperands .lbp = some o ∧ idle1.status.state ≠ .busy ∧ capacity idle1.params o.source < idle1.len.toNat) ∧
    (∃ o, frameOperands .gray = some o ∧ (at1 ⟨.busy, 0, 1⟩ 1 1 5).status.op = Instr.gray.op ∧
      capacity params1 o.source + 1 = (at1 ⟨.busy, 0, 1⟩ 1 1 5).len.toNat) :=
  ⟨⟨_, rfl, by decide⟩, ⟨_, rfl, by decide⟩⟩

theorem witness_HoldWhileBusy_status :
    ∃ (s : State) (rest : List Event), s.Inv ∧ s.status.state = .busy ∧ s.held = none ∧
      s.inbox = .host (.regRead 0x04) :: rest :=
  ⟨{ busy1 with inbox := [.host (.regRead 0x04)] }, [],
    ⟨busy1_inv.1, busy1_inv.2, busy1_inv.3, busy1_inv.4, busy1_inv.5, busy1_inv.6, busy1_inv.7, busy1_inv.8, busy1_inv.9,
      busy1_inv.10⟩, by decide⟩

theorem witness_HoldWhileBusy_other :
    ∃ (s : State) (a : HostAction) (rest : List Event), s.status.state = .busy ∧ s.held = none ∧
      s.inbox = .host a :: rest ∧ a ≠ .reset ∧ a ≠ .regRead 0x04 :=
  ⟨{ busy1 with inbox := [.host (.memRead8 .gray 0)] }, .memRead8 .gray 0, [], by decide⟩

theorem witness_HoldWhileBusy_release :
    ∃ (s : State) (a : HostAction), s.status.state ≠ .busy ∧ s.held = some a :=
  ⟨{ done1 with held := some (.regRead 0x14) }, .regRead 0x14, by decide⟩

theorem witness_StatusCanReadBusyAnyNumberOfTimes :
    ∃ (i : Instr) (o : FrameOperands) (s : State) (n : Nat) (rest : List Event), frameOperands i = some o ∧
      s.status.state ≠ .busy ∧ s.held = none ∧ s.len.toNat ≤ capacity s.params o.source ∧
      s.inbox = .host (.regWrite 0x00 (encode i)) :: (List.replicate n (.host (.regRead 0x04)) ++ rest) :=
  ⟨.gray, _, { idle1 with inbox := [.host (.regWrite 0x00 1), .host (.regRead 0x04), .host (.regRead 0x04)] }, 2, [], rfl,
    by decide⟩

theorem witness_BusyReadsDoNotMatter :
    ∃ (i : Instr) (o : FrameOperands) (s : State), frameOperands i = some o ∧ s.Between ∧ s.status.state ≠ .busy ∧
      s.len.toNat ≤ capacity s.params o.source :=
  ⟨.gray, _, idle1, rfl, ⟨rfl, rfl⟩, by decide⟩

theorem witness_WaitStopsAtTheFirstReadThatIsNotBusy :
    (idle1.Between ∧ idle1.status.state ≠ .busy) ∧ (busy1.Between ∧ busy1.Inv ∧ busy1.status.state = .busy) :=
  ⟨⟨⟨rfl, rfl⟩, by decide⟩, ⟨rfl, rfl⟩, busy1_inv, by decide⟩

theorem witness_BusyBlockCompletes : busy1.Inv ∧ busy1.status.state = .busy ∧ .host .reset ∉ busy1.inbox :=
  ⟨busy1_inv, by decide⟩

/-- A step to BUSY, one to DONE, one to ERROR, and one to IDLE in each of the two ways. -/
theorem witness_OnlyTheseStateTransitions :
    (∃ s t : State, step s = .next t ∧ t.status.state ≠ s.status.state ∧ t.status.state = .busy) ∧
    (∃ s t : State, step s = .next t ∧ t.status.state ≠ s.status.state ∧ t.status.state = .done) ∧
    (∃ s t : State, step s = .next t ∧ t.status.state ≠ s.status.state ∧ t.status.state = .error) ∧
    (∃ s t : State, step s = .next t ∧ t.status.state ≠ s.status.state ∧ t.status.state = .idle) ∧
    (∃ s t : State, step s = .next t ∧ s.status.state = .busy ∧ t.status.state = .idle) :=
  ⟨⟨{ idle1 with inbox := [.host (.regWrite 0x00 1)] }, _, rfl, by decide⟩,
    ⟨busy1, _, rfl, by decide⟩,
    ⟨at1 ⟨.busy, 0, 1⟩ 1 1 3, _, rfl, by decide⟩,
    ⟨{ done1 with inbox := [.host (.regWrite 0x00 0)] }, _, rfl, by decide⟩,
    ⟨{ busy1 with inbox := [.host .reset] }, _, rfl, by decide⟩⟩

/-! ### Witnesses: the units -/

theorem witness_LumaIsTheRoundedWeightedSum :
    lumaDefault.rnd = .floor ∧ ({ lumaDefault with rnd := .nearest } : Luma).rnd = .nearest := by decide

theorem witness_LawsOfEveryLuma :
    (254 : Byte).toNat ≤ (255 : Byte).toNat ∧ (0 : Byte).toNat ≤ (0 : Byte).toNat := by decide

theorem witness_GrayFnWholeBuffer : (11 : Nat) < 4 * 3 := by decide

/-- Two frames of one pixel with different alpha bytes. -/
theorem witness_AlphaIsIgnored :
    (∀ i < 4 * (1 * 1), i % 4 ≠ 3 → cellsOf [1, 2, 3, 0] i = cellsOf [1, 2, 3, 255] i) ∧
    cellsOf [1, 2, 3, 0] 3 ≠ cellsOf [1, 2, 3, 255] 3 := by decide

/-- The one interior cell of a 3 by 3 frame, with the first and the last neighbour. -/
theorem witness_LbpBitsFollowTheNeighbours :
    (1 : Nat) ≤ 1 ∧ 1 + 2 ≤ 3 ∧
    [((-1 : Int), (-1 : Int)), (0, -1), (1, -1), (1, 0), (1, 1), (0, 1), (-1, 1), (-1, 0)][0]? = some (-1, -1) ∧
    [((-1 : Int), (-1 : Int)), (0, -1), (1, -1), (1, 0), (1, 1), (0, 1), (-1, 1), (-1, 0)][7]? = some (-1, 0) := by decide

theorem witness_LbpCodeConsequences :
    ((254 : Byte).toNat + (1 : Byte).toNat < 256 ∧ ∀ i : Fin 8, ((fun _ => 254 : Fin 8 → Byte) i).toNat + (1 : Byte).toNat < 256) ∧
    (∀ i : Fin 8, (1 : Byte) ≤ (fun _ => 2 : Fin 8 → Byte) i ↔ (5 : Byte) ≤ (fun _ => 5 : Fin 8 → Byte) i) ∧
    (lbpFn 3 3 (cellsOf [7, 7, 7, 7, 7, 7, 7, 7, 7]))[1 * 3 + 1]? = some 0xFF := by decide

/-- The four corners of a frame, and a frame of one cell. -/
theorem witness_LbpBorderIsZero :
    (0 : Nat) < 4 ∧ (4 - 1 : Nat) < 4 ∧ (0 : Nat) < 3 ∧ (3 - 1 : Nat) < 3 ∧ (0 : Nat) = 1 - 1 := by decide

theorem witness_LbpDegenerateSizesAreZero : (2 : Nat) < 3 ∧ (0 : Nat) < 3 := by decide

/-- Two images that differ only outside the neighbourhood of the cell. -/
theorem witness_LbpCellsAreLocal :
    (0 : Nat) < 5 ∧ (0 : Nat) < 1 ∧
    (∀ x' < 5, ∀ y' < 1, x' ≤ 0 + 1 → y' ≤ 0 + 1 →
      cellsOf [1, 2, 3, 4, 5] (y' * 5 + x') = cellsOf [1, 2, 9, 4, 5] (y' * 5 + x')) ∧
    cellsOf [1, 2, 3, 4, 5] 2 ≠ cellsOf [1, 2, 9, 4, 5] 2 := by decide

/-! ### Witnesses: registers, memories and Reset -/

theorem witness_OnlyTheseStatusWords :
    (idle1.Inv ∧ idle1.status.word = 0x00000000) ∧ (busy1.Inv ∧ busy1.status.word = 0x00000101) ∧
    (done1.Inv ∧ done1.status.word = 0x00000102) ∧ (failed1.Inv ∧ failed1.status.word = 0x00000323) :=
  ⟨⟨idle1_inv, by decide⟩, ⟨busy1_inv, by decide⟩, ⟨done1_inv, by decide⟩, ⟨failed1_inv, by decide⟩⟩

theorem witness_RegisterAccessOutsideTheMapIsRefused :
    (0x18 : Nat) ≤ 0x18 ∧ (0x02 : Nat) % 4 ≠ 0 ∧ (0x14 : Nat) < 0x18 ∧ (0x14 : Nat) % 4 = 0 := by decide

/-- The last index of PIX, of GRAY and of LBPM. -/
theorem witness_HostMemoryWrites :
    Space.pix ≠ .lbpm ∧ 3 < capacity idle1.params .pix ∧ Space.gray ≠ .lbpm ∧ 0 < capacity idle1.params .gray ∧
    0 < capacity idle1.params .lbpm := by decide

/-- A written cell, and an unwritten one. -/
theorem witness_HostMemoryReads :
    3 < capacity busy1.params .pix ∧ busy1.cell .pix 3 = some 255 ∧ 0 < capacity busy1.params .lbpm ∧
    busy1.cell .lbpm 0 = none := by decide

theorem witness_MemoryAccessOutsideTheSpaceIsRefused :
    capacity idle1.params .pix ≤ 4 ∧ capacity idle1.params .gray ≤ 1 ∧ capacity idle1.params .lbpm ≤ 1 := by decide

theorem witness_ResetIsNeverHeld :
    (∃ (s : State) (rest : List Event), s.inbox = .host .reset :: rest ∧ s.status.state = .busy ∧ s.held ≠ none) ∧
    ∃ (s : State) (rest : List Event), s.inbox = .host .reset :: rest ∧ s.held = none :=
  ⟨⟨{ busy1 with inbox := [.host .reset], held := some (.regWrite 0x08 5) }, [], by decide⟩,
    ⟨{ done1 with inbox := [.host .reset] }, [], by decide⟩⟩

theorem witness_CommandStraightAfterReset :
    (∃ o, frameOperands .gray = some o) ∧ (∃ o, frameOperands .lbp = some o) ∧ ∃ o, frameOperands .proc = some o :=
  ⟨⟨_, rfl⟩, ⟨_, rfl⟩, ⟨_, rfl⟩⟩

/-! ### Witnesses: the whole machine -/

theorem witness_StepKeepsTheInvariant : ∃ s t : State, s.Inv ∧ step s = .next t ∧ t.status.state = .done :=
  ⟨busy1, _, busy1_inv, rfl, by decide⟩

theorem witness_NoStepFaults : busy1.Inv := busy1_inv

/-- One step refused for each of the three reasons. -/
theorem witness_OnlyUndefinedActionsAreRefused :
    ∃ s1 s2 s3 : State, s1.Inv ∧ s2.Inv ∧ s3.Inv ∧ step s1 = .refused .lenAboveCapacity ∧
      step s2 = .refused .noSuchRegister ∧ step s3 = .refused .noSuchCell := by
  have inv (es : List Event) : State.Inv { idle1 with inbox := es } :=
    ⟨idle1_inv.1, idle1_inv.2, idle1_inv.3, idle1_inv.4, idle1_inv.5, idle1_inv.6, idle1_inv.7, idle1_inv.8, idle1_inv.9,
      idle1_inv.10⟩
  exact ⟨{ idle1 with inbox := [.host (.regWrite 0x00 2)] }, { idle1 with inbox := [.host (.regRead 0x18)] },
    { idle1 with inbox := [.host (.memRead8 .pix 4)] }, inv _, inv _, inv _, rfl, rfl, rfl⟩

theorem witness_CommandsWriteOnlyTheirResults :
    (∃ t, exec .clr done1 = .next t ∧ t.status.state ≠ .done) ∧ (∃ t, exec .gray busy1 = .next t ∧ t.status.state = .done) ∧
    (∃ t, exec .lbp (at1 ⟨.busy, 0, 2⟩ 1 1 1) = .next t) ∧ ∃ t, exec .proc (at1 ⟨.busy, 0, 3⟩ 1 1 4) = .next t :=
  ⟨⟨_, rfl, by decide⟩, ⟨_, rfl, by decide⟩, ⟨_, rfl⟩, ⟨_, rfl⟩⟩

theorem witness_OnlyCompletionAndResetChangeLbpm :
    (∃ s t : State, step s = .next t ∧ t.lbpm ≠ s.lbpm ∧ t.status.state = .done) ∧
    ∃ s t : State, step s = .next t ∧ t.lbpm ≠ s.lbpm ∧ t.status.state = .idle :=
  ⟨⟨{ at1 ⟨.busy, 0, 2⟩ 1 1 1 with gray := memory [9] }, _, rfl, by decide⟩,
    ⟨{ done1 with lbpm := memory [9], inbox := [.host .reset] }, _, rfl, by decide⟩⟩

theorem witness_ResultLivesOn :
    ∃ s t : State, s.status.state = .done ∧ step s = .next t ∧ s.nextMove.1 = .host (.regWrite 0x08 9) ∧
      s.nextMove.1 ≠ .host .reset ∧ (∀ v, s.nextMove.1 ≠ .host (.regWrite 0x00 v)) ∧
      ∀ idx b, s.nextMove.1 ≠ .host (.memWrite8 (resultSpace s.status.op) idx b) :=
  ⟨{ done1 with inbox := [.host (.regWrite 0x08 9)] }, _, by decide, rfl, by decide, by decide,
    fun _ h => absurd (congrArg (fun m => decide (m = Move.host (.regWrite 0x08 9))) h) (by simp [State.nextMove, State.freeMove, done1, at1, State.reset]),
    fun _ _ h => by cases h⟩

/-- Two states that hold different GRAY bytes, OUTLEN and counts of Resets. -/
theorem witness_OutcomeDependsOnlyOnTheFrame :
    ∃ (i : Instr) (o : FrameOperands) (s s' : State), frameOperands i = some o ∧ s ≠ s' ∧
      s.status.state = .busy ∧ s'.status.state = .busy ∧ s.status.op = i.op ∧ s'.status.op = i.op ∧
      s'.params = s.params ∧ DescriptorSame s s' ∧ s.len.toNat ≤ capacity s.params o.source ∧
      ∀ j < s.len.toNat, s'.byteAt o.source j = s.byteAt o.source j :=
  ⟨.gray, _, busy1, { busy1 with outlen := 7, gray := memory [1], resets := 3 }, rfl, by decide, by decide, by decide,
    by decide, by decide, rfl, ⟨rfl, rfl, rfl⟩, by decide, by decide⟩

theorem witness_CommandsAreIdempotent :
    ∃ (i : Instr) (s t : State), s.Inv ∧ s.Between ∧ runProgram [.command i] s = .next t :=
  ⟨.gray, busy1, _, busy1_inv, ⟨rfl, rfl⟩, rfl⟩

theorem witness_ProcIsGrayThenLbp :
    (idle1.Inv ∧ idle1.Between ∧ idle1.status.state ≠ .busy ∧ idle1.len.toNat ≤ 4 * idle1.params.maxPix ∧
      idle1.len.toNat = 4 * idle1.area ∧ 1 ≤ idle1.width.toNat ∧ 1 ≤ idle1.height.toNat) ∧
    (failed1.Inv ∧ failed1.Between ∧ failed1.status.state ≠ .busy ∧ failed1.len.toNat ≤ 4 * failed1.params.maxPix ∧
      failed1.len.toNat ≠ 4 * failed1.area) :=
  ⟨⟨idle1_inv, ⟨rfl, rfl⟩, by decide⟩, ⟨failed1_inv, ⟨rfl, rfl⟩, by decide⟩⟩

/-! ### Witnesses: the host -/

theorem witness_RefCodecAcceptsExactlyEncodings :
    (∃ m, refDecode (bytes [1, 0, 0, 0, 1, 0, 0, 0, 1, 0, 0, 0, 7]) = some m) ∧ (bytes [7]).length < 2 ^ 32 ∧
    refEncode ⟨1, 1, bytes [7]⟩ = refEncode ⟨1, 1, bytes [7]⟩ := ⟨⟨_, rfl⟩, by decide, rfl⟩

/-- A command and another STATUS read are to come, a write is held behind a command in progress, and a block is not BUSY. -/
theorem witness_WaitEndsOnAReadThatIsNotBusy :
    (∃ t u : State, runLine (.wait 2) (State.reset.withFetchWord 32 3) = .next t ∧
      drain (State.reset.withFetchWord 32 3) = .next u ∧ u.status.state = .busy) ∧
    (∃ t : State, runLine (.wait 1)
      { busy1 with held := some (.regWrite 0x08 9), inbox := [.host (.regRead 0x04), .engine] } = .next t) ∧
    ∃ t : State, runLine (.wait 0) failed1 = .next t :=
  ⟨⟨_, _, rfl, rfl, rfl⟩, ⟨_, rfl⟩, ⟨_, rfl⟩⟩

/-- A Message that fills the source memory of each command, from a block that is not BUSY and from one that is. -/
theorem witness_MessageMapsOntoTheBlock :
    idle1.Inv ∧ idle1.Between ∧ idle1.status.state ≠ .busy ∧ busy1.Inv ∧ busy1.Between ∧
    (∃ o, frameOperands .gray = some o ∧ (bytes [1, 2, 3, 4]).length = capacity params1 o.source) ∧
    (∃ o, frameOperands .lbp = some o ∧ (bytes [1]).length = capacity params1 o.source) ∧
    ∃ o, frameOperands .proc = some o ∧ (bytes [1, 2, 3, 4]).length = capacity params1 o.source :=
  ⟨idle1_inv, ⟨rfl, rfl⟩, by decide, busy1_inv, ⟨rfl, rfl⟩, ⟨_, rfl, by decide⟩, ⟨_, rfl, by decide⟩, ⟨_, rfl, by decide⟩⟩

/-- A Message that fills the source memory, one that is a byte longer, and one that cannot be presented. -/
theorem witness_CommandOnAMessage :
    (∃ o, frameOperands .lbp = some o ∧ idle1.Inv ∧ idle1.Between ∧ (bytes [1]).length = capacity idle1.params o.source ∧
      ∃ r, (callCommand .lbp 0 ⟨1, 1, bytes [1]⟩ idle1).1 = .ok r) ∧
    (∃ o, frameOperands .gray = some o ∧ capacity idle1.params o.source < (bytes [1, 2, 3, 4, 5]).length) ∧
    (Message.mk 0 0 (List.replicate (2 ^ 32) 0)).presentable = false :=
  ⟨⟨_, rfl, idle1_inv, ⟨rfl, rfl⟩, by decide, _, rfl⟩, ⟨_, rfl, by decide⟩, test_unpresentable_message_refused⟩

/-- A state between calls, with bytes that do not decode and with requests of each of the three kinds. -/
theorem witness_ProcessEqualsThePipeline :
    idle1.Inv ∧ idle1.Between ∧ refCodec.decode (bytes [1]) = none ∧
    (∃ m, refCodec.decode (bytes [1, 0, 0, 0, 1, 0, 0, 0, 4, 0, 0, 0, 1, 2, 3, 4]) = some m ∧
      m.buf.length = 4 * idle1.params.maxPix ∧ m.buf.length = m.width.toNat * m.height.toNat * 4 ∧ m.width.toNat = 1) ∧
    (∃ m, refCodec.decode (bytes [1, 0, 0, 0, 1, 0, 0, 0, 3, 0, 0, 0, 1, 2, 3]) = some m ∧
      m.buf.length ≤ 4 * idle1.params.maxPix ∧ m.buf.length ≠ m.width.toNat * m.height.toNat * 4) ∧
    (∃ m, refCodec.decode (bytes [0, 0, 0, 0, 0, 0, 0, 0, 0, 0, 0, 0]) = some m ∧
      m.buf.length ≤ 4 * idle1.params.maxPix ∧ m.buf.length = m.width.toNat * m.height.toNat * 4 ∧ m.width.toNat = 0) :=
  ⟨idle1_inv, ⟨rfl, rfl⟩, rfl, ⟨_, rfl, by decide⟩, ⟨_, rfl, by decide⟩, ⟨_, rfl, by decide⟩⟩

end Sys2Proof.Tests
end

section
/-! PROOFS of the statements on the state, the registers and the invariant (family `10_state.md`). First what a move, a host
action and a command can do to the state, each said once; then the statements. -/

namespace Sys2Proof.Machine

variable {s t : State} {i : Instr} {o : FrameOperands} {a : HostAction}

/-! ### The next move, and what one step makes of it -/

/-- The move is made from a state that differs in the inbox and the held action only, and a newly held action is one that the
hold applies to. -/
theorem nextMove_snd (s : State) : ∃ es hd, s.nextMove.2 = s.withHost es hd s.replies ∧
    ∀ b, hd = some b → s.held = some b ∨ waitsWhileBusy b = true := by
  rcases nextMove_cases s with ⟨es, hm, -⟩ | ⟨es, hm, -⟩ | ⟨a, es, hm, -⟩ | ⟨a, hm, -⟩ | ⟨a, es, hm, -, -, -, hw⟩ |
    ⟨es, hm, -⟩ <;> rw [hm]
  · exact ⟨es, s.held, rfl, fun _ => .inl⟩
  · exact ⟨es, s.held, rfl, fun _ => .inl⟩
  · exact ⟨es, s.held, rfl, fun _ => .inl⟩
  · exact ⟨s.inbox, none, rfl, nofun⟩
  · exact ⟨es, some a, rfl, fun b hb => .inr (Option.some.inj hb ▸ hw)⟩
  · exact ⟨es, s.held, rfl, fun _ => .inl⟩

@[simp] theorem nextMove_status : s.nextMove.2.status = s.status := by
  obtain ⟨es, hd, hu, -⟩ := nextMove_snd s
  simp [hu]

@[simp] theorem nextMove_mem (sp : Space) : s.nextMove.2.mem sp = s.mem sp := by
  obtain ⟨es, hd, hu, -⟩ := nextMove_snd s
  simp [hu]

/-- The engine moves only while a command is in progress (R151). -/
theorem busy_of_nextMove_engine (h : s.nextMove.1 = .engine) : s.status.state = .busy := by
  rcases nextMove_cases s with ⟨es, -, hb, -⟩ | ⟨es, hm, -⟩ | ⟨a, es, hm, -⟩ | ⟨a, hm, -⟩ | ⟨a, es, hm, -⟩ | ⟨es, hm, -⟩
  · exact hb
  all_goals simp [hm] at h

/-- A host action that takes effect while BUSY is none that the hold applies to (R154). -/
theorem not_waits_of_nextMove_host (h : s.nextMove.1 = .host a) (hb : s.status.state = .busy) :
    waitsWhileBusy a = false := by
  rcases nextMove_cases s with ⟨es, hm, -⟩ | ⟨es, hm, -⟩ | ⟨a', es, hm, -, -, hw⟩ | ⟨a', -, hn, -⟩ | ⟨a', es, hm, -⟩ |
    ⟨es, hm, -⟩
  · simp [hm] at h
  · obtain rfl : HostAction.reset = a := by simpa [hm] using h
    rfl
  · obtain rfl : a' = a := by simpa [hm] using h
    exact waitsWhileBusy_eq_false.mpr (.inl (hw hb))
  · exact absurd hb hn
  · simp [hm] at h
  · simp [hm] at h

/-- Everything a step can do when it answers a next state: the engine's turn, a host action that takes effect, or nothing. -/
theorem step_cases (h : step s = .next t) :
    (s.nextMove.1 = .engine ∧ s.status.state = .busy ∧ engineTurn s.nextMove.2 = .next t) ∨
    (∃ a, s.nextMove.1 = .host a ∧ (s.status.state = .busy → waitsWhileBusy a = false) ∧
      perform a s.nextMove.2 = .next t) ∨
    (s.nextMove.1 = .quiet ∧ t = s.nextMove.2) := by
  cases hm : s.nextMove.1 <;> rw [step, hm] at h
  case engine => exact .inl ⟨rfl, busy_of_nextMove_engine hm, h⟩
  case host a => exact .inr (.inl ⟨a, rfl, not_waits_of_nextMove_host hm, h⟩)
  case quiet => cases h; exact .inr (.inr ⟨rfl, rfl⟩)

/-! ### What a command and the engine's turn can do -/

/-- Outside BUSY the next step of CLR is its whole effect (R153), and that of any other command its issue (R150). -/
theorem exec_free_cases (hb : s.status.state ≠ .busy) (h : exec i s = .next t) :
    (i = .clr ∧ t = s.clear) ∨ (i ≠ .clr ∧ t = s.issue i) := by
  rcases exec_cases h with ⟨h, -⟩ | ⟨-, hi, rfl⟩ | ⟨o, ho, -, -, rfl⟩ | ⟨o, -, h, -⟩
  · exact absurd h hb
  · exact .inl ⟨hi, rfl⟩
  · exact .inr ⟨frameOperands_ne_clr ho, rfl⟩
  · exact absurd h hb

/-- The engine's turn is the completion step of the command that OP names. -/
theorem engineTurn_cases (hb : s.status.state = .busy) (h : engineTurn s = .next t) :
    ∃ i o, frameOperands i = some o ∧ s.status.op = i.op ∧ s.len.toNat ≤ capacity s.params o.source ∧
      t = s.complete o.arity (storeOf i) := by
  have h0 : s.status.op ≠ 0 := fun h0 => by simp [engineTurn, h0] at h
  rw [engineTurn_of_ne h0] at h
  have hop : (Instr.ofOp s.status.op).op = s.status.op := op_ofOp _
  rcases exec_cases h with ⟨-, hc, -⟩ | ⟨hn, -⟩ | ⟨o, -, hn, -⟩ | ⟨o, ho, -, -, hl, rfl⟩
  · exact absurd hop.symm (hc.resolve_left fun hi => h0 (by rw [← hop, hi]; rfl))
  · exact absurd hb hn
  · exact absurd hb hn
  · exact ⟨_, o, ho, hop.symm, hl, rfl⟩

/-- A command writes no memory unless it ends DONE, and then the memories are those of its stores. -/
theorem exec_mem (h : exec i s = .next t) :
    (∀ sp, t.mem sp = s.mem sp) ∨ (t.status.state = .done ∧ ∀ sp, t.mem sp = (storeOf i s).mem sp) := by
  rcases exec_cases h with ⟨-, -, rfl⟩ | ⟨-, -, rfl⟩ | ⟨o, -, -, -, rfl⟩ | ⟨o, -, -, -, -, rfl⟩
  · exact .inl (hold_mem s _)
  · exact .inl (clear_mem s)
  · exact .inl (issue_mem s i)
  · rcases complete_cases (s := s) o.arity (storeOf i) with ⟨e, -, hc⟩ | ⟨-, hc⟩ <;> rw [hc]
    · exact .inl (raise_mem s e)
    · exact .inr ⟨rfl, succeed_mem _⟩

/-- No command touches the descriptor, the parameters, the moves to come, the replies or the count of Resets. -/
theorem exec_frame_fields (h : exec i s = .next t) :
    DescriptorSame s t ∧ t.params = s.params ∧ t.inbox = s.inbox ∧ t.replies = s.replies ∧ t.resets = s.resets := by
  rcases exec_cases h with ⟨-, -, rfl⟩ | ⟨-, -, rfl⟩ | ⟨o, -, -, -, rfl⟩ | ⟨o, -, -, -, -, rfl⟩ <;> simp [DescriptorSame]

/-- Whether a command leaves a memory alone: none stores to PIX, CLR to none, GRAY not to LBPM and LBP not to GRAY (R40,
R140). -/
def keepsSpace : Instr → Space → Bool
  | .clr, _ => true
  | _, .pix => true
  | .gray, .lbpm => true
  | .lbp, .gray => true
  | _, _ => false

/-- The stores of a command leave every other memory alone. -/
theorem storeOf_mem_of_keeps : ∀ {i : Instr} {sp : Space}, keepsSpace i sp = true → (storeOf i s).mem sp = s.mem sp
  | .clr, _, _ => rfl
  | .gray, .pix, _ | .gray, .lbpm, _ => rfl
  | .lbp, .pix, _ | .lbp, .gray, _ => rfl
  | .proc, .pix, _ => rfl

theorem exec_mem_of_keeps {sp : Space} (hk : keepsSpace i sp = true) (h : exec i s = .next t) :
    t.mem sp = s.mem sp := by
  rcases exec_mem h with hm | ⟨-, hm⟩
  · exact hm sp
  · rw [hm, storeOf_mem_of_keeps hk]

theorem cellsSame_of_mem {sp : Space} (h : t.mem sp = s.mem sp) : CellsSame sp s t := fun k => by
  simp only [State.cell, h]

/-! ### What a host action can do -/

theorem perform_ctrl (v : Word) (s : State) : perform (.regWrite 0x00 v) s = exec (decode v) s := rfl

theorem perform_regRead (r : Reg) (s : State) :
    perform (.regRead (regOffset r)) s = .next (s.reply (.word (s.readReg r))) := by
  simp [perform, hostRegRead]

theorem perform_regWrite {r : Reg} (hr : r ≠ .ctrl) (v : Word) (s : State) :
    perform (.regWrite (regOffset r) v) s = .next (s.writeReg r v) := by
  cases r
  · exact absurd rfl hr
  all_goals rfl

theorem perform_memWrite {sp : Space} {k : Nat} (hsp : sp ≠ .lbpm) (hk : k < capacity s.params sp) (b : Byte) :
    perform (.memWrite8 sp k b) s = .next (s.writeByte sp k b) := by
  simp only [perform, hostMemWrite, if_pos hk]
  cases sp
  case lbpm => exact absurd rfl hsp
  all_goals rfl

theorem perform_memWrite_lbpm {k : Nat} (hk : k < capacity s.params .lbpm) (b : Byte) :
    perform (.memWrite8 .lbpm k b) s = .next s := by
  simp only [perform, hostMemWrite, if_pos hk]

/-- Of the host's actions only a command and Reset change STATUS or LBPM. -/
theorem perform_status_lbpm (h : perform a s = .next t) :
    (∃ v, a = .regWrite 0x00 v ∧ exec (decode v) s = .next t) ∨ (a = .reset ∧ t = s.resetBlock) ∨
    (t.status = s.status ∧ t.lbpm = s.lbpm) := by
  rcases perform_cases h with ⟨v, rfl, h⟩ | ⟨r, v, -, -, rfl⟩ | ⟨r, -, rfl⟩ | ⟨sp, k, b, hsp, -, -, rfl⟩ | ⟨k, b, -, -, rfl⟩ |
    ⟨sp, k, -, -, rfl⟩ | ⟨ha, rfl⟩
  · exact .inl ⟨v, rfl, h⟩
  · exact .inr (.inr ⟨writeReg_status r v, writeReg_lbpm r v⟩)
  · exact .inr (.inr ⟨rfl, rfl⟩)
  · exact .inr (.inr ⟨writeByte_status s sp k b, setMem_mem_of_ne s (sp' := .lbpm) _ hsp.symm⟩)
  · exact .inr (.inr ⟨rfl, rfl⟩)
  · exact .inr (.inr ⟨rfl, rfl⟩)
  · exact .inr (.inl ⟨ha, rfl⟩)

/-- A CTRL write that takes effect does so outside BUSY. -/
theorem not_busy_of_ctrl {off : Nat} {v : Word} (hw : s.status.state = .busy → waitsWhileBusy (.regWrite off v) = false) :
    s.status.state ≠ .busy := fun hb => by simpa [waitsWhileBusy] using hw hb

/-! ### The invariant -/

theorem inv_hold (ha : waitsWhileBusy a = true) (h : s.Inv) : (s.hold a).Inv := by
  refine inv_congr h rfl rfl rfl rfl (hold_mem s a) fun b hb => ?_
  rcases Option.or_eq_some_iff.mp hb with hb | ⟨-, hb⟩
  · exact h.held_waits b hb
  · exact Option.some.inj hb ▸ ha

theorem inv_reply (r : Reply) (h : s.Inv) : (s.reply r).Inv :=
  inv_congr h rfl rfl rfl rfl (reply_mem s r) h.held_waits

theorem inv_nextMove (h : s.Inv) : s.nextMove.2.Inv := by
  obtain ⟨es, hd, hu, hw⟩ := nextMove_snd s
  rw [hu]
  exact inv_congr h rfl rfl rfl rfl (withHost_mem es hd s.replies) fun b hb => (hw b hb).elim (h.held_waits b) id

/-- Every command keeps the invariant. -/
theorem inv_exec (h : s.Inv) (he : exec i s = .next t) : t.Inv := by
  rcases exec_cases he with ⟨-, -, rfl⟩ | ⟨-, -, rfl⟩ | ⟨o, ho, -, hl, rfl⟩ | ⟨o, ho, -, hop, hl, rfl⟩
  · exact inv_hold rfl h
  · exact inv_clear h
  · exact inv_issue ho hl h
  · exact inv_complete ho hop hl h

/-- Every host action that the block lets take effect keeps the invariant. -/
theorem inv_perform (h : s.Inv) (hw : s.status.state = .busy → waitsWhileBusy a = false)
    (hp : perform a s = .next t) : t.Inv := by
  rcases perform_cases hp with ⟨v, -, he⟩ | ⟨r, v, -, rfl, rfl⟩ | ⟨r, -, rfl⟩ | ⟨sp, k, b, -, hk, -, rfl⟩ |
    ⟨k, b, -, -, rfl⟩ | ⟨sp, k, -, -, rfl⟩ | ⟨-, rfl⟩
  · exact inv_exec h he
  · exact inv_writeReg (not_busy_of_ctrl hw) h
  · exact inv_reply _ h
  · exact inv_writeByte hk h
  · exact h
  · exact inv_reply _ h
  · exact inv_resetBlock h

/-- Settles O45: the move is made from a state that meets the invariant, and each kind of move keeps it. -/
theorem stepKeepsTheInvariant : Obligations.StepKeepsTheInvariant := by
  intro s t h hs
  have hu : s.nextMove.2.Inv := inv_nextMove h
  rcases step_cases hs with ⟨-, hb, he⟩ | ⟨a, -, hw, hp⟩ | ⟨-, rfl⟩
  · obtain ⟨i, o, ho, hop, hl, rfl⟩ := engineTurn_cases (by simpa using hb) he
    exact inv_complete ho hop hl hu
  · exact inv_perform hu (by simpa using hw) hp
  · exact hu

/-- Settles O44: at reset the memories are empty, all of STATUS is 0 and nothing is held. -/
theorem resetMeetsTheInvariant : Obligations.ResetMeetsTheInvariant where
  wf sp := by cases sp <;> exact .nil
  within sp := by cases sp <;> simp [State.mem, State.reset]
  err_iff := by decide
  err_legal := by decide
  op_iff := by decide
  outlen_zero _ := rfl
  outlen_bounds := by decide
  result_written := by decide
  busy_len := by decide
  held_waits _ ha := by cases ha

/-! ### STATE and LBPM over a step -/

/-- Settles O21: the engine's turn ends in DONE or ERROR, and of the host's actions only a command outside BUSY and Reset
change STATUS. -/
theorem onlyTheseStateTransitions : Obligations.OnlyTheseStateTransitions := by
  intro s t hs hne
  rcases step_cases hs with ⟨hm, hb, he⟩ | ⟨a, hm, hw, hp⟩ | ⟨-, rfl⟩
  · obtain ⟨i, o, -, -, -, rfl⟩ := engineTurn_cases (by simpa using hb) he
    refine ⟨fun h => absurd h (complete_ne_busy _), fun _ => ⟨hb, hm⟩, fun h => ?_⟩
    rcases complete_state (s := s.nextMove.2) (i := i) o.arity with hd | hd <;> rw [hd] at h <;> cases h
  · rcases perform_status_lbpm hp with ⟨v, rfl, he⟩ | ⟨rfl, rfl⟩ | ⟨hst, -⟩
    · have hb := not_busy_of_ctrl hw
      rcases exec_free_cases (by simpa using hb) he with ⟨hi, rfl⟩ | ⟨hi, rfl⟩
      · exact ⟨by simp, by simp, fun _ => .inr ⟨hb, v, hm, hi⟩⟩
      · exact ⟨fun _ => ⟨v, hm, hi⟩, by simp, by simp⟩
    · exact ⟨by simp, by simp, fun _ => .inl hm⟩
    · exact absurd (by rw [hst, nextMove_status]) hne
  · exact absurd (by rw [nextMove_status]) hne

/-- Settles O49: of the host's actions only Reset changes LBPM, and a completion step changes it only where it ends DONE and
the command stores to LBPM. -/
theorem onlyCompletionAndResetChangeLbpm : Obligations.OnlyCompletionAndResetChangeLbpm := by
  intro s t hs hne
  have hl : s.nextMove.2.lbpm = s.lbpm := nextMove_mem .lbpm
  rcases step_cases hs with ⟨hm, hb, he⟩ | ⟨a, hm, hw, hp⟩ | ⟨-, rfl⟩
  · obtain ⟨i, o, ho, hop, hlen, rfl⟩ := engineTurn_cases (by simpa using hb) he
    have he := exec_complete (s := s.nextMove.2) ho (by simpa using hb) hop hlen
    rw [nextMove_status] at hop
    refine .inr ⟨hm, hb, ?_, ?_⟩
    · have hk : keepsSpace i .lbpm ≠ true := fun hk => hne ((exec_mem_of_keeps hk he).trans hl)
      cases i
      case lbp => exact .inl hop
      case proc => exact .inr hop
      all_goals exact absurd rfl hk
    · rcases exec_mem he with hmem | ⟨hd, -⟩
      · exact absurd ((hmem .lbpm).trans hl) hne
      · exact hd
  · rcases perform_status_lbpm hp with ⟨v, rfl, he⟩ | ⟨rfl, -⟩ | ⟨-, hlb⟩
    · rcases exec_free_cases (by simpa using not_busy_of_ctrl hw) he with ⟨-, rfl⟩ | ⟨-, rfl⟩ <;> exact absurd hl hne
    · exact .inl hm
    · exact absurd (hlb.trans hl) hne
  · exact absurd hl hne

/-! ### Commands -/

/-- Settles O48: the memories are the old ones or, in DONE, those of the command's stores, which keep the memories that are
not the command's and every cell from `W * H` up. -/
theorem commandsWriteOnlyTheirResults : Obligations.CommandsWriteOnlyTheirResults := by
  intro i s t h
  have keeps {sp : Space} (hk : keepsSpace i sp = true) : CellsSame sp s t := cellsSame_of_mem (exec_mem_of_keeps hk h)
  obtain ⟨hdesc, hpar, hin, hrep, hres⟩ := exec_frame_fields h
  refine ⟨keeps (by cases i <;> rfl), hdesc, hpar, hin, hrep, hres, ?_, ?_, fun sp p hp => ?_, fun hd sp => ?_⟩
  · rintro (rfl | rfl) <;> exact keeps rfl
  · rintro (rfl | rfl) <;> exact keeps rfl
  · rcases exec_mem h with hm | ⟨-, hm⟩
    · exact cellsSame_of_mem (hm sp) p
    · exact (cellsSame_of_mem (hm sp) p).trans (storeOf_cell_of_le hp)
  · rcases exec_mem h with hm | ⟨hd', -⟩
    · exact cellsSame_of_mem (hm sp)
    · exact absurd hd' hd

/-- The luminances depend on the frame only. -/
theorem frameGray_congr {s' : State} (hp : s'.params = s.params) (hw : s'.width = s.width) (hh : s'.height = s.height)
    (hb : ∀ j < 4 * s.area, s'.byteAt .pix j = s.byteAt .pix j) : s'.frameGray = s.frameGray := by
  simp only [State.frameGray, hp, hw, hh]
  exact grayFn_congr _ hb

/-- What a command stores below `W * H` depends on the frame only: the result, and for PROC the luminances in GRAY too. -/
theorem storeOf_cell_congr {s' : State} (ho : frameOperands i = some o) (hp : s'.params = s.params)
    (hw : s'.width = s.width) (hh : s'.height = s.height)
    (hb : ∀ j < s.area * o.arity, s'.byteAt o.source j = s.byteAt o.source j) {p : Nat} (hlt : p < s.area) :
    (storeOf i s').cell o.result p = (storeOf i s).cell o.result p ∧
      (i = .proc → (storeOf i s').cell .gray p = (storeOf i s).cell .gray p) := by
  have ha : s'.area = s.area := by simp only [State.area, hw, hh]
  cases i <;> simp only [frameOperands, reduceCtorEq, Option.some.injEq] at ho <;> subst ho
  case gray =>
    have hg := frameGray_congr hp hw hh fun j hj => hb j (by simpa [Nat.mul_comm] using hj)
    simp [storeGray_cell, ha, hlt, hg]
  case lbp =>
    have hl : lbpFn s.width.toNat s.height.toNat (s'.byteAt .gray) = lbpFn s.width.toNat s.height.toNat (s.byteAt .gray) :=
      lbpFn_congr fun j hj => hb j (by simpa [State.area] using hj)
    simp [storeLbp_cell, ha, hlt, hw, hh, hl]
  case proc =>
    have hg := frameGray_congr hp hw hh fun j hj => hb j (by simpa [Nat.mul_comm] using hj)
    simp [storeProc_cell, ha, hlt, hw, hh, hg]

/-- Settles O51: both completion steps meet the same frame check, and what they store depends on the frame only. -/
theorem outcomeDependsOnlyOnTheFrame : Obligations.OutcomeDependsOnlyOnTheFrame := by
  rintro i o s s' ho hb hb' hop hop' hpar ⟨hw, hh, hn⟩ hl hbytes
  refine ⟨_, _, exec_complete ho hb hop hl, exec_complete ho hb' hop' (by rwa [hn, hpar]), ?_⟩
  rcases complete_cases (s := s) o.arity (storeOf i) with ⟨e, hv, hc⟩ | ⟨hv, hc⟩ <;>
    have hv' := hv <;> rw [← hw, ← hh, ← hn] at hv'
  · rw [hc, complete_of_some hv']
    simp [hop, hop']
  · rw [hc, complete_of_none hv']
    have hlen : s.len.toNat = s.area * o.arity := (validate_eq_none.mp hv).1
    refine ⟨by simp [hop, hop'], by simp [hw, hh], fun _ p hp => ?_⟩
    simpa using storeOf_cell_congr ho hpar hw hh (by rwa [← hlen]) hp

/-- Settles O16: a LEN above the capacity is refused unless the block is BUSY with another command. -/
theorem oversizedLenIsRefused : Obligations.OversizedLenIsRefused := by
  intro i o s ho hs hl
  rw [exec_frame ho, frameCommand, if_neg (fun h => hs.elim (· h.1) h.2), if_pos hl]

/-- Settles O5: the write is the host's next move, and a CTRL write that takes effect is `exec` of the decoded command. -/
theorem stepRunsTheDecodedCommand : Obligations.StepRunsTheDecodedCommand := by
  intro s v hb
  refine ⟨fun rest hh hi => ?_, fun hh => ?_⟩
  · rw [step_free_host hb hh hi, perform_ctrl]
  · rw [step_free_held hb hh, perform_ctrl]

/-- Settles O7: the placed write stands first in the inbox of a block that is not BUSY and holds nothing. -/
theorem placedWordRunsNext : Obligations.PlacedWordRunsNext := by
  intro s v
  have hb : (s.withFetchWord 32 v.toNat).status.state ≠ .busy := by
    simp only [State.withFetchWord]
    split
    · simp
    · assumption
  have hv : BitVec.ofNat 32 (v.toNat % 2 ^ 32) = v := by
    rw [Nat.mod_eq_of_lt v.isLt, BitVec.ofNat_toNat, BitVec.setWidth_eq]
  refine ⟨{ s.withFetchWord 32 v.toNat with inbox := s.held.toList.map .host ++ s.inbox }, ?_, hb, rfl, rfl, rfl, rfl,
    rfl, rfl, rfl, rfl, rfl, fun h => if_neg h⟩
  rw [step_free_host hb rfl rfl, hv]
  exact perform_ctrl v _

/-! ### Registers -/

/-- OP and the reserved bits of the STATUS word (R26). -/
theorem word_op_and_reserved (st : Status) :
    st.word.extractLsb' 8 2 = st.op ∧ st.word.extractLsb' 2 2 = 0 ∧ st.word.extractLsb' 10 22 = 0 := by
  obtain ⟨st, err, op⟩ := st
  simp only [Status.word]
  generalize st.code = c
  revert c err op
  decide

/-- Settles O33: the word is its fields side by side, and the accesses are those of the register map. -/
theorem statusRegister : Obligations.StatusRegister := by
  refine ⟨fun st => ?_, rfl, rfl, rfl, rfl, perform_regRead .status, fun s v => perform_regWrite (r := .status) nofun v s⟩
  obtain ⟨hop, hlow, hhigh⟩ := word_op_and_reserved st
  exact ⟨wordState_word st, hlow, wordErr_word st, hop, hhigh⟩

/-- Settles O34: the invariant leaves OP = 0 in IDLE, the three commands elsewhere, and code 2 or 3 in ERROR only. -/
theorem onlyTheseStatusWords : Obligations.OnlyTheseStatusWords := by
  intro s h
  have herr := h.err_iff
  have hleg := h.err_legal
  have hop := h.op_iff
  generalize s.status = st at *
  obtain ⟨st, err, op⟩ := st
  cases st
  case idle =>
    obtain rfl : op = 0 := hop.mpr rfl
    obtain rfl : err = 0 := by simpa using herr
    decide
  case busy | done =>
    obtain rfl : err = 0 := by simpa using herr
    revert op
    decide
  case error =>
    rcases hleg.resolve_left (herr.mpr rfl) with rfl | rfl <;> revert op <;> decide

/-- Settles O35: each offset is that of its register in the map. -/
theorem registerAccesses : Obligations.RegisterAccesses := fun s v =>
  ⟨perform_regRead .ctrl s, perform_regRead .width s, perform_regRead .height s, perform_regRead .len s,
    perform_regRead .outlen s, perform_regWrite (r := .width) nofun v s, perform_regWrite (r := .height) nofun v s,
    perform_regWrite (r := .len) nofun v s, perform_regWrite (r := .outlen) nofun v s⟩

/-- Settles O36: an offset names no register exactly outside the map; at a register's offset a read answers it and a write is
refused for its LEN only. -/
theorem registerAccessOutsideTheMapIsRefused : Obligations.RegisterAccessOutsideTheMapIsRefused := by
  refine fun off s => ⟨fun h => ?_, fun hlt hmod => ?_⟩
  · have hr := regAt_eq_none.mpr h
    exact ⟨by simp [perform, hostRegRead, hr], fun v => by simp [perform, hostRegWrite, hr]⟩
  · have hin : ¬ (0x18 ≤ off ∨ off % 4 ≠ 0) := by omega
    obtain ⟨r, hr⟩ := Option.ne_none_iff_exists'.mp (regAt_eq_none.not.mpr hin)
    obtain rfl := regAt_eq_some.mp hr
    refine ⟨⟨_, perform_regRead r s⟩, fun v hv => ?_⟩
    rcases perform_refused hv with ⟨h, -⟩ | ⟨-, off, ha, hout⟩ | ⟨h, -⟩
    · cases h
    · rcases ha with ha | ⟨_, ha⟩ <;> cases ha
      exact hin hout
    · cases h

/-- Settles O41: every field at its value, and CTRL is read like any register. -/
theorem stateAfterReset : Obligations.StateAfterReset :=
  ⟨by decide, rfl, rfl, rfl, rfl, rfl, fun sp _ => by cases sp <;> rfl, perform_regRead .ctrl _⟩

/-! ### Host writes to the memories -/

/-- Settles O37: the write is one `State.writeByte`, or nothing at all for LBPM. -/
theorem hostMemoryWrites : Obligations.HostMemoryWrites := by
  refine ⟨fun s sp k b hsp hk => ⟨_, perform_memWrite hsp hk b, writeByte_cell_same sp k b, ?_, ?_⟩,
    fun s k b hk => perform_memWrite_lbpm hk b⟩
  · exact fun sp' j hne => writeByte_cell_of_ne b hne
  · simp [DescriptorSame, HostSideSame]

end Sys2Proof.Machine
end

section
/-! PROOFS of the statements on the memories (family `20_memory.md`). First what it is to store a buffer or run a command a
second time; then the statements. -/

namespace Sys2Proof.Machine

variable {s t : State} {i : Instr}

/-! ### Stores made twice -/

theorem setMem_setMem (sp : Space) (m m' : Memory) : (s.setMem sp m).setMem sp m' = s.setMem sp m' := by
  cases sp <;> rfl

/-- Storing the same buffer twice is storing it once. -/
theorem storeBuffer_storeBuffer {sp : Space} {bs : List Byte} (h : Memory.wf (s.mem sp)) :
    (s.storeBuffer sp bs).storeBuffer sp bs = s.storeBuffer sp bs := by
  simp only [State.storeBuffer, setMem_mem_same, setMem_setMem, writeRun_twice h]

theorem storeBuffer_lbpm_gray_comm (bs bs' : List Byte) :
    (s.storeBuffer .lbpm bs).storeBuffer .gray bs' = (s.storeBuffer .gray bs').storeBuffer .lbpm bs := rfl

/-- The stores of a command leave the luminances of the frame as they are, because none goes to PIX. -/
theorem storeOf_frameGray : (storeOf i s).frameGray = s.frameGray :=
  frameGray_congr storeOf_params storeOf_width storeOf_height fun j _ =>
    byteAt_congr (by simp only [State.cell, State.mem, storeOf_pix]) storeOf_resets

/-- A command's stores made twice are its stores made once: they do not go to what it reads (R58). -/
theorem storeOf_storeOf (h : ∀ sp, Memory.wf (s.mem sp)) : storeOf i (storeOf i s) = storeOf i s := by
  cases i
  case clr => rfl
  case gray =>
    have hg : (storeGray s).frameGray = s.frameGray := storeOf_frameGray (i := .gray)
    simp only [storeOf]
    rw [storeGray, hg]
    exact storeBuffer_storeBuffer (h .gray)
  case lbp => exact storeBuffer_storeBuffer (h .lbpm)
  case proc =>
    have hg : (storeProc s).frameGray = s.frameGray := storeOf_frameGray (i := .proc)
    simp only [storeOf]
    rw [storeProc, hg, storeProc, storeBuffer_lbpm_gray_comm, storeBuffer_storeBuffer (h .gray)]
    exact storeBuffer_storeBuffer (h .lbpm)

/-! ### A command run twice -/

/-- Issuing a frame command again on the state it has left, and completing it, leaves that state (R157): the issue takes
STATUS and OUTLEN back to what they were when the command was in progress. -/
theorem complete_issue_complete (a : Nat) (h : ∀ sp, Memory.wf (s.mem sp)) :
    (((s.issue i).complete a (storeOf i)).issue i).complete a (storeOf i) = (s.issue i).complete a (storeOf i) := by
  rcases complete_cases (s := s.issue i) a (storeOf i) with ⟨e, -, hc⟩ | ⟨hv, hc⟩
  · have hback : ((s.issue i).raise e).issue i = s.issue i := rfl
    rw [hc, hback, hc]
  · have hback : (storeOf i (s.issue i)).succeed.issue i = storeOf i (s.issue i) := by cases i <;> rfl
    have hv' : validate a (storeOf i (s.issue i)).width.toNat (storeOf i (s.issue i)).height.toNat
        (storeOf i (s.issue i)).len.toNat = none := by simpa using hv
    rw [hc, hback, complete_of_none hv', storeOf_storeOf (by simpa using h)]

/-- A program of one command: its CTRL write, and then the engine's turn if it is in progress. -/
theorem runProgram_command (i : Instr) (s : State) :
    runProgram [.command i] s = andThen (act (ctrlWrite i) s) finish := by
  simp only [runProgram, runLines, runLine, lineActions, actAll, andThen_assoc, andThen_next]

/-- A program of one command on a block that is not BUSY: CLR clears, a frame command issues and completes. -/
theorem runProgram_command_free (hb : s.status.state ≠ .busy) (hs : s.Between) :
    runProgram [.command i] s = .next t ↔
      (i = .clr ∧ t = s.clear) ∨
      ∃ o, frameOperands i = some o ∧ s.len.toNat ≤ capacity s.params o.source ∧
        t = (s.issue i).complete o.arity (storeOf i) := by
  rw [runProgram_command, act_command hb hs]
  constructor
  · intro h
    obtain ⟨u, hu, hf⟩ := andThen_eq_next.mp h
    rcases exec_cases hu with ⟨h, -⟩ | ⟨-, hi, rfl⟩ | ⟨o, ho, -, hl, rfl⟩ | ⟨o, -, h, -⟩
    · exact absurd h hb
    · rw [finish_free (s := s.clear) (by simp) hs] at hf
      cases hf
      exact .inl ⟨hi, rfl⟩
    · rw [finish_issue ho hs hl] at hf
      cases hf
      exact .inr ⟨o, ho, hl, rfl⟩
    · exact absurd h hb
  · rintro (⟨rfl, rfl⟩ | ⟨o, ho, hl, rfl⟩)
    · rw [show exec .clr s = .next s.clear from if_neg hb, andThen_next, finish_free (s := s.clear) (by simp) hs]
    · rw [exec_issue ho hb hl, andThen_next, finish_issue ho hs hl]

/-- A program of one command on a BUSY block does what it does on the state that the command in progress leaves. -/
theorem exists_free_runProgram_command (i : Instr) (h : s.Inv) (hs : s.Between) :
    ∃ c : State, c.Inv ∧ c.status.state ≠ .busy ∧ c.Between ∧ runProgram [.command i] s = runProgram [.command i] c := by
  by_cases hb : s.status.state = .busy
  · obtain ⟨c, hc, hst, hcs, -, -, -, -, -, hact⟩ := exists_completed h hb hs
    have hcb : c.status.state ≠ .busy := by rcases hst with h | h <;> simp [h]
    refine ⟨c, hc, hcb, hcs, ?_⟩
    rw [runProgram_command, runProgram_command, hact _ rfl, act_free _ hcb hcs]
  · exact ⟨s, h, hb, hs, rfl⟩

/-- Settles O52: a command in progress finishes first; then CLR clears a cleared block, and a frame command meets the same
frame, whose result it stores again. -/
theorem commandsAreIdempotent : Obligations.CommandsAreIdempotent := by
  intro i s t h hs hrun
  obtain ⟨c, hc, hcb, hcs, he⟩ := exists_free_runProgram_command i h hs
  rw [he] at hrun
  rcases (runProgram_command_free hcb hcs).mp hrun with ⟨hi, rfl⟩ | ⟨o, ho, hl, rfl⟩
  · exact (runProgram_command_free (s := c.clear) (by simp) hcs).mpr (.inl ⟨hi, rfl⟩)
  · have hbetween : ((c.issue i).complete o.arity (storeOf i)).Between := ⟨by simp [hcs.1], by simp [hcs.2]⟩
    refine (runProgram_command_free (complete_ne_busy _) hbetween).mpr (.inr ⟨o, ho, by simpa using hl, ?_⟩)
    exact (complete_issue_complete o.arity hc.wf).symm

/-! ### Host reads, and accesses outside a memory -/

theorem byteAt_of_unwritten {sp : Space} {k : Nat} (h : s.cell sp k = none) :
    s.byteAt sp k = Config.unwrittenByte s.resets sp k := by
  simp [State.byteAt, h]

theorem perform_memRead {sp : Space} {k : Nat} (hk : k < capacity s.params sp) :
    perform (.memRead8 sp k) s = .next (s.reply (.byte (s.byteAt sp k))) :=
  if_pos hk

/-- Settles O38: the read replies `State.byteAt`, which is the byte of a written cell and else the free value. -/
theorem hostMemoryReads : Obligations.HostMemoryReads := by
  intro s sp k hk
  rw [perform_memRead hk]
  refine ⟨fun b hb => ?_, fun hn => ?_⟩
  · rw [byteAt_of_cell hb]; rfl
  · rw [byteAt_of_unwritten hn]; rfl

/-- Settles O39: both accesses look at the size of the memory first. -/
theorem memoryAccessOutsideTheSpaceIsRefused : Obligations.MemoryAccessOutsideTheSpaceIsRefused := by
  intro s sp k b hk
  have hout : ¬ k < capacity s.params sp := Nat.not_lt.mpr hk
  exact ⟨if_neg hout, if_neg hout⟩

end Sys2Proof.Machine
end

section
/-! PROOFS of the statements on the command words, the lines of a host program, WAIT and Messages (family
`30_encoding.md`). First each part's facts, then the statements of that part. -/

namespace Sys2Proof.Machine

variable {s t : State} {i : Instr} {o : FrameOperands}

/-! ### Command words -/

/-- The reserved bits of a word are ignored (R82). -/
theorem decode_or_shiftLeft_two (v w : Word) : decode (v ||| (w <<< 2)) = decode v := by
  have h : (v ||| (w <<< 2)).extractLsb' 0 2 = v.extractLsb' 0 2 := by
    ext j hj
    simp [hj]
  rw [decode, h, decode]

theorem encode_toNat (i : Instr) : (encode i).toNat = i.op.toNat := by
  cases i <;> rfl

/-- The word of the command that a word decodes to is its low two bits: the mask of R80. -/
theorem encode_decode (v : Word) : encode (decode v) = v &&& 3 := by
  apply BitVec.eq_of_toNat_eq
  have hmask : v.toNat &&& 3 = v.toNat % 4 := Nat.and_two_pow_sub_one_eq_mod v.toNat 2
  simp [encode_toNat, decode, hmask]

/-- R80's match and mask. -/
theorem decode_eq_iff {v : Word} : decode v = i ↔ v &&& 3 = encode i := by
  constructor
  · rintro rfl
    exact (encode_decode v).symm
  · intro h
    rw [← encode_decode] at h
    rw [← decode_encode (decode v), h, decode_encode]

theorem decode_and_three (v : Word) : decode (v &&& 3) = decode v := by
  rw [← encode_decode, decode_encode]

/-- Settles O3: the decoder does not look at bits 31:2, the encoder writes 0 there, and a bit string of any word is decoded
exactly at length 32. -/
theorem decodeOfEncodeWithAnyReservedBits : Obligations.DecodeOfEncodeWithAnyReservedBits := by
  refine ⟨fun i r => ⟨by rw [decode_or_shiftLeft_two, decode_encode], by cases i <;> decide⟩, fun nbits w => ?_⟩
  by_cases h : nbits = 32 <;> simp [decodeTableWord, decodeBits, h, Except.toOption]

/-- Settles O1: the mask keeps the two bits that the decoder reads. -/
theorem decodeFollowsOpcodeMap : Obligations.DecodeFollowsOpcodeMap :=
  ⟨fun _ => ⟨decode_eq_iff, decode_eq_iff, decode_eq_iff, decode_eq_iff⟩, rfl, rfl, rfl, rfl⟩

/-- Settles O2: a word is a string of 32 bits, and the mask keeps the two bits that the decoder reads. -/
theorem everyWordIsACommand : Obligations.EveryWordIsACommand := by
  refine fun v => ⟨?_, (decode_and_three v).symm⟩
  simp [decodeTableWord, decodeBits, Except.toOption]

/-- Settles O4: each word under the mask is the word of its command. -/
theorem writtenOutWordsDecode : Obligations.WrittenOutWordsDecode := by
  simp only [Obligations.WrittenOutWordsDecode, decode_eq_iff]
  decide

/-! ### The actions of a line -/

theorem loadActions_getElem? (sp : Space) (k : Nat) (bs : List Byte) (j : Nat) :
    (loadActions sp k bs)[j]? = bs[j]?.map fun b => .memWrite8 sp (k + j) b := by
  induction bs generalizing k j with
  | nil => rfl
  | cons b bs ih =>
    cases j with
    | zero => rfl
    | succ j => simp only [loadActions, List.getElem?_cons_succ, ih, Nat.add_right_comm, Nat.add_assoc]

theorem dumpActions_eq_map (sp : Space) (k n : Nat) :
    dumpActions sp k n = (List.range' k n).map fun j => .memRead8 sp j := by
  induction n generalizing k with
  | zero => rfl
  | succ n ih => rw [dumpActions, ih, List.range'_succ, List.map_cons]

/-- Settles O43: LOAD and DUMP by induction on their length, the other lines as they stand in the table. -/
theorem hostLinesAreTheseActions : Obligations.HostLinesAreTheseActions := by
  refine ⟨fun v => ⟨rfl, rfl, rfl, rfl, rfl, rfl⟩, rfl, rfl, rfl, rfl, rfl, rfl, fun _ _ _ => ⟨rfl, rfl⟩,
    rfl, rfl, rfl, rfl, rfl, fun _ _ _ => rfl, fun sp bs j => ?_, fun sp n => ?_⟩
  · simpa [lineActions] using loadActions_getElem? sp 0 bs j
  · rw [List.range_eq_range']
    exact dumpActions_eq_map sp 0 n

/-! ### WAIT -/

/-- Settles O56: outside BUSY the first read ends the WAIT; while BUSY the command in progress completes after the reads that
return BUSY. -/
theorem waitStopsAtTheFirstReadThatIsNotBusy : Obligations.WaitStopsAtTheFirstReadThatIsNotBusy := by
  intro n s hs
  refine ⟨fun hb => wait_free n hb hs, fun h hb => ?_⟩
  obtain ⟨c, -, hst, hcs, -, -, hrep, hfin, hfins, -⟩ := exists_completed h hb hs
  have hcb : c.status.state ≠ .busy := by rcases hst with h | h <;> simp [h]
  refine ⟨c, by rw [← finish_busy hb hs, hfin], hcb, hrep, ?_⟩
  have hw := wait_busy hb hcb hfins n s.replies
  rw [withHost_of_between hs] at hw
  rw [runLine, hw, State.withHost, hcs.1.symm, hcs.2.symm]

/-- What a WAIT that runs to its end on a BUSY block leaves, whatever command is in progress. -/
theorem wait_busy_next {n : Nat} (hb : s.status.state = .busy) (hs : s.Between) (h : wait n s = .next t) :
    t.Between ∧ t.status.state ≠ .busy ∧
      t.replies = s.replies ++ List.replicate n (.word s.status.word) ++ [.word t.status.word] := by
  induction n generalizing s with
  | zero =>
    obtain ⟨c, hc, hr⟩ := andThen_eq_next.mp h
    obtain ⟨hcs, hcb⟩ := finish_next hc
    rw [regOffset, act_status hcs] at hr
    cases hr
    rw [finish_busy hb hs, step_busy_nil hb hs.1] at hc
    obtain ⟨-, -, -, hrep⟩ := engineTurn_next hb hc
    exact ⟨hcs, hcb, by simp [hrep]⟩
  | succ n ih =>
    simp only [wait, regOffset, act_status_busy hb hs, andThen_next, lastReadBusy_reply, hb, decide_true, if_true] at h
    obtain ⟨ht, htb, hrep⟩ := ih (s := s.reply (.word s.status.word)) hb hs h
    exact ⟨ht, htb, by simp [hrep, List.replicate_succ]⟩

theorem lastReadBusy_of_replies {rs : List Reply} (h : t.replies = rs ++ [.word t.status.word]) :
    t.lastReadBusy = decide (t.status.state = .busy) :=
  (congrArg (fun rs => State.lastReadBusy { t with replies := rs }) h).trans
    (lastReadBusy_reply (s := { t with replies := rs }) t.status)

/-- Settles O59: what is to come takes place first, and leaves a block between calls, BUSY or not. -/
theorem waitEndsOnAReadThatIsNotBusy : Obligations.WaitEndsOnAReadThatIsNotBusy := by
  intro n s t h
  rw [runLine, wait_drain] at h
  obtain ⟨u, hu, h⟩ := andThen_eq_next.mp h
  have hus := between_of_drain hu
  by_cases hb : u.status.state = .busy
  · obtain ⟨ht, htb, hrep⟩ := wait_busy_next hb hus h
    refine ⟨ht, htb, by simp [lastReadBusy_of_replies hrep, htb], u, hu, hus, fun hn => absurd hb hn, fun _ => hrep⟩
  · rw [wait_free n hb hus] at h
    cases h
    exact ⟨hus, hb, by simp [lastReadBusy_reply, hb], u, hu, hus, fun _ => rfl, fun h => absurd h hb⟩

/-! ### Presenting a Message -/

/-- The state that the presenting lines of a Message leave: its width, height and length in the descriptor, and its buffer in
the source memory from index 0 (R87). -/
def State.present (s : State) (sp : Space) (m : Message) : State :=
  State.storeBuffer { s with width := m.width, height := m.height, len := BitVec.ofNat 32 m.buf.length } sp m.buf

variable {sp : Space} {m : Message}

@[simp] theorem present_status : (s.present sp m).status = s.status := by simp [State.present]
@[simp] theorem present_width : (s.present sp m).width = m.width := by simp [State.present]
@[simp] theorem present_height : (s.present sp m).height = m.height := by simp [State.present]
@[simp] theorem present_len : (s.present sp m).len = BitVec.ofNat 32 m.buf.length := by simp [State.present]
@[simp] theorem present_outlen : (s.present sp m).outlen = s.outlen := by simp [State.present]
@[simp] theorem present_params : (s.present sp m).params = s.params := by simp [State.present]
@[simp] theorem present_inbox : (s.present sp m).inbox = s.inbox := by simp [State.present]
@[simp] theorem present_held : (s.present sp m).held = s.held := by simp [State.present]
@[simp] theorem present_replies : (s.present sp m).replies = s.replies := by simp [State.present]
@[simp] theorem present_resets : (s.present sp m).resets = s.resets := by simp [State.present]

theorem present_cell (sp' : Space) (k : Nat) :
    (s.present sp m).cell sp' k = if sp' = sp ∧ k < m.buf.length then m.buf[k]? else s.cell sp' k := by
  rw [State.present, storeBuffer_cell]
  cases sp' <;> rfl

theorem present_between (hs : s.Between) : (s.present sp m).Between := ⟨by simp [hs.1], by simp [hs.2]⟩

/-- What fits a memory has a length of 32 bits (R7). -/
theorem lt_of_le_capacity {p : Params} {n : Nat} (h : n ≤ capacity p sp) : n < 2 ^ 32 := by
  have := p.maxPix_le
  cases sp <;> simp only [capacity] at h <;> omega

theorem present_len_toNat (hm : m.buf.length ≤ capacity s.params sp) : (s.present sp m).len.toNat = m.buf.length := by
  rw [present_len, BitVec.toNat_ofNat, Nat.mod_eq_of_lt (lt_of_le_capacity hm)]

theorem inv_present (hb : s.status.state ≠ .busy) (hm : m.buf.length ≤ capacity s.params sp) (h : s.Inv) :
    (s.present sp m).Inv := by
  have h1 : (s.writeReg .width m.width).Inv := inv_writeReg hb h
  have h2 : ((s.writeReg .width m.width).writeReg .height m.height).Inv := inv_writeReg hb h1
  have h3 : (((s.writeReg .width m.width).writeReg .height m.height).writeReg .len (BitVec.ofNat 32 m.buf.length)).Inv :=
    inv_writeReg hb h2
  exact inv_load m.buf 0 (by simpa using hm) h3

theorem source_ne_lbpm (ho : frameOperands i = some o) : o.source ≠ .lbpm := by
  cases i <;> simp only [frameOperands, reduceCtorEq, Option.some.injEq] at ho <;> subst ho <;> decide

theorem act_regWrite_free {r : Reg} (hb : s.status.state ≠ .busy) (hs : s.Between) (hr : r ≠ .ctrl) (v : Word) :
    act (.regWrite (regOffset r) v) s = .next (s.writeReg r v) := by
  rw [act_free _ hb hs, perform_regWrite hr]

/-- `FRAME` on a block that is not BUSY is its three register writes. -/
theorem runLine_frame (hb : s.status.state ≠ .busy) (hs : s.Between) (w h n : Word) :
    runLine (.frame w h n) s = .next { s with width := w, height := h, len := n } := by
  have hw := act_regWrite_free (r := .width) hb hs nofun w
  have hh := act_regWrite_free (s := s.writeReg .width w) (r := .height) hb hs nofun h
  have hn := act_regWrite_free (s := (s.writeReg .width w).writeReg .height h) (r := .len) hb hs nofun n
  simp only [runLine, lineActions, actAll, hw, hh, hn, andThen_next]
  rfl

theorem runLines_presentLines (hb : s.status.state ≠ .busy) (hs : s.Between) (hsp : sp ≠ .lbpm)
    (hm : m.buf.length ≤ capacity s.params sp) : runLines (presentLines sp m) s = .next (s.present sp m) := by
  have hload := actAll_load (s := { s with width := m.width, height := m.height, len := BitVec.ofNat 32 m.buf.length })
    hb hs hsp m.buf 0 (by simpa using hm)
  simp only [presentLines, runLines, runLine_frame hb hs, andThen_next]
  rw [runLine, lineActions, hload]
  · rfl
  · nofun

/-- A program that begins with FRAME does on a BUSY block what it does on the state that the command in progress leaves. -/
theorem exists_free_runLines_frame (h : s.Inv) (hs : s.Between) :
    ∃ c : State, c.Inv ∧ c.status.state ≠ .busy ∧ c.Between ∧ c.params = s.params ∧ (s.status.state ≠ .busy → c = s) ∧
      ∀ w ht n ls, runLines (.frame w ht n :: ls) s = runLines (.frame w ht n :: ls) c := by
  by_cases hb : s.status.state = .busy
  · obtain ⟨c, hc, hst, hcs, hpar, -, -, -, -, hact⟩ := exists_completed h hb hs
    have hcb : c.status.state ≠ .busy := by rcases hst with h | h <;> simp [h]
    refine ⟨c, hc, hcb, hcs, hpar, fun hn => absurd hb hn, fun w ht n ls => ?_⟩
    simp only [runLines, runLine, lineActions, actAll]
    rw [hact _ rfl, act_free _ hcb hcs]
  · exact ⟨s, h, hb, hs, rfl, fun _ => rfl, fun _ _ _ _ => rfl⟩

/-- Settles O57: a command in progress completes first; then the lines are the descriptor writes and the stores of the
buffer. -/
theorem messageMapsOntoTheBlock : Obligations.MessageMapsOntoTheBlock := by
  intro i o m s ho h hs hm
  obtain ⟨c, hc, hcb, hcs, hpar, hfree, hrun⟩ := exists_free_runLines_frame h hs
  rw [← hpar] at hm
  have hbetween := present_between (sp := o.source) (m := m) hcs
  refine ⟨c.present o.source m, ?_, inv_present hcb hm hc, hbetween, by simpa using hcb, present_width, present_height,
    present_len_toNat hm, fun k hk => by simp [present_cell, hk], by simp [hpar], fun hb => ?_⟩
  · rw [runProgram, presentLines, hrun]
    exact (congrArg (andThen · finish) (runLines_presentLines hcb hcs (source_ne_lbpm ho) hm)).trans
      (finish_free (by simpa using hcb) hbetween)
  · obtain rfl := hfree hb
    refine ⟨present_status, present_outlen, by simp [HostSideSame], fun sp k hk => ?_⟩
    rw [present_cell, if_neg fun hin => hk.elim (· hin.1) (Nat.not_le.mpr hin.2)]

/-! ### Reading a result out -/

theorem act_regRead_free (hb : s.status.state ≠ .busy) (hs : s.Between) (r : Reg) :
    act (.regRead (regOffset r)) s = .next (s.reply (.word (s.readReg r))) := by
  rw [act_free _ hb hs, perform_regRead]

/-- The three register reads before a result is dumped. -/
theorem runProgram_read_descriptor (hb : s.status.state ≠ .busy) (hs : s.Between) :
    runProgram [.rd .width, .rd .height, .rd .outlen] s =
      .next (s.withHost [] none (s.replies ++ [.word s.width, .word s.height, .word s.outlen])) := by
  have hw := act_regRead_free hb hs .width
  have hh := act_regRead_free (s := s.reply (.word s.width)) hb hs .height
  have hk := act_regRead_free (s := (s.reply (.word s.width)).reply (.word s.height)) hb hs .outlen
  have hfin : finish (((s.reply (.word s.width)).reply (.word s.height)).reply (.word s.outlen)) = _ := finish_free hb hs
  simp only [State.readReg, reply_height, reply_outlen] at hw hh hk
  simp only [runProgram, runLines, runLine, lineActions, actAll, hw, hh, hk, andThen_next, hfin]
  rw [State.withHost, hs.1.symm, hs.2.symm]
  simp [State.reply]

/-- On a block that is not BUSY, the readout answers WIDTH, HEIGHT and the first OUTLEN bytes of the result memory, and changes
only what the host has read (R87). -/
theorem readMessage_eq (hb : s.status.state ≠ .busy) (hs : s.Between) (hn : s.outlen.toNat ≤ capacity s.params sp) :
    ∃ rs, readMessage sp s =
      (.ok ⟨s.width, s.height, (List.range s.outlen.toNat).map (s.byteAt sp)⟩, s.withHost [] none rs) := by
  have hdump (rs : List Reply) : runProgram [.dump sp s.outlen.toNat] (s.withHost [] none rs) =
      .next (s.withHost [] none (rs ++ (List.range s.outlen.toNat).map fun j => .byte (s.byteAt sp j))) := by
    simp only [runProgram, runLines, runLine, lineActions]
    rw [actAll_dump hb _ 0 (by simpa using hn), andThen_next, andThen_next, List.range_eq_range']
    exact finish_free (s := s.withHost [] none _) hb (withHost_between s _)
  refine ⟨s.replies ++ [.word s.width, .word s.height, .word s.outlen] ++
    (List.range s.outlen.toNat).map fun j => .byte (s.byteAt sp j), ?_⟩
  simp only [readMessage, runProgram_read_descriptor hb hs, withHost_replies, List.drop_left', List.map_cons, List.map_nil,
    replyWord, hdump, List.map_map]
  rfl

theorem response_withHost (es hd rs) : (s.withHost es hd rs).response = s.response := by
  simp only [State.response, withHost_status, withHost_width, withHost_height, withHost_outlen, byteAt_withHost]

/-! ### One command on one Message -/

/-- What a call answers (R87, R193): the dimension errors in their order, else the command's image of the buffer. -/
def callAnswer (i : Instr) (arity : Nat) (L : Luma) (m : Message) : CallResult :=
  if m.buf.length ≠ m.width.toNat * m.height.toNat * arity then .err .dimensionMismatch
  else if m.width.toNat = 0 ∨ m.height.toNat = 0 then .err .invalidDimensions
  else .ok { width := m.width, height := m.height, buf := resultImage i L m }

/-- The lines of a call: the Message is presented, the command issued and waited for. -/
def callLines (i : Instr) (o : FrameOperands) (m : Message) (n : Nat) : List Line :=
  presentLines o.source m ++ [.command i, .wait n]

/-- The state that a call leaves, but for the host's side: the Message is presented, and the command issued and completed. -/
def State.called (s : State) (i : Instr) (o : FrameOperands) (m : Message) : State :=
  ((s.present o.source m).issue i).complete o.arity (storeOf i)

@[simp] theorem called_width : (s.called i o m).width = m.width := by simp [State.called]
@[simp] theorem called_height : (s.called i o m).height = m.height := by simp [State.called]

theorem called_ne_busy : (s.called i o m).status.state ≠ .busy := complete_ne_busy _

theorem maxPix_le_capacity (p : Params) (sp : Space) : p.maxPix ≤ capacity p sp := by
  cases sp <;> simp only [capacity] <;> omega

theorem inv_withHost_none (es : List Event) (rs : List Reply) (h : s.Inv) : (s.withHost es none rs).Inv :=
  inv_congr h rfl rfl rfl rfl (withHost_mem es none rs) nofun

theorem inv_called (ho : frameOperands i = some o) (hb : s.status.state ≠ .busy)
    (hm : m.buf.length ≤ capacity s.params o.source) (h : s.Inv) : (s.called i o m).Inv := by
  have hl : (s.present o.source m).len.toNat ≤ capacity (s.present o.source m).params o.source := by
    rwa [present_len_toNat hm, present_params]
  exact inv_complete ho rfl hl (inv_issue ho hl (inv_present hb hm h))

theorem resultImage_length (ho : frameOperands i = some o) (L : Luma) :
    (resultImage i L m).length = m.width.toNat * m.height.toNat := by
  cases i
  case clr => cases ho
  all_goals simp [resultImage]

/-- Where the source memory holds the buffer of a Message, a command stores its image of that buffer. -/
theorem storeOf_result_getElem? (ho : frameOperands i = some o) (hw : s.width = m.width) (hh : s.height = m.height)
    (hbuf : ∀ j < s.area * o.arity, s.byteAt o.source j = m.buf.getD j 0) {k : Nat} (hk : k < s.area) :
    (storeOf i s).cell o.result k = (resultImage i s.params.luma m)[k]? := by
  have gray (hpix : ∀ j < s.area * 4, s.byteAt .pix j = m.buf.getD j 0) :
      s.frameGray = grayFn s.params.luma m.width.toNat m.height.toNat fun j => m.buf.getD j 0 := by
    rw [State.frameGray, ← hw, ← hh]
    exact grayFn_congr _ fun j hj => hpix j (by rwa [Nat.mul_comm])
  cases i <;> simp only [frameOperands, reduceCtorEq, Option.some.injEq] at ho <;> subst ho
  case gray => rw [storeGray_cell, if_pos ⟨rfl, hk⟩, gray hbuf, resultImage]
  case lbp =>
    rw [storeLbp_cell, if_pos ⟨rfl, hk⟩, resultImage, ← hw, ← hh]
    exact congrArg (·[k]?) (lbpFn_congr fun j hj => hbuf j (by simpa [State.area] using hj))
  case proc => rw [storeProc_cell, if_pos ⟨rfl, hk⟩, gray hbuf, resultImage, hw, hh]

/-- The bytes of cells that hold a list are that list. -/
theorem map_byteAt_range {bs : List Byte} {n : Nat} (hn : bs.length = n) (hc : ∀ k < n, s.cell sp k = bs[k]?) :
    (List.range n).map (s.byteAt sp) = bs := by
  refine List.ext_getElem (by simp [hn]) fun k _ hk => ?_
  have hcell := hc k (hn ▸ hk)
  rw [List.getElem?_eq_getElem hk] at hcell
  simp [byteAt_of_cell hcell]

/-- A Message whose length is not that of its frame leaves ERROR with code 2. -/
theorem called_status_of_mismatch (hm : m.buf.length ≤ capacity s.params o.source)
    (hn : m.buf.length ≠ m.width.toNat * m.height.toNat * o.arity) :
    (s.called i o m).status = ⟨.error, 2, i.op⟩ := by
  have hv := validate_of_ne hn
  rw [← present_len_toNat (sp := o.source) hm] at hv
  rw [State.called, complete_of_some (e := .dimensionMismatch) (by simpa using hv)]
  rfl

/-- A Message with a frame of no pixels leaves ERROR with code 3. -/
theorem called_status_of_zero (hm : m.buf.length ≤ capacity s.params o.source)
    (hn : m.buf.length = m.width.toNat * m.height.toNat * o.arity) (h0 : m.width.toNat = 0 ∨ m.height.toNat = 0) :
    (s.called i o m).status = ⟨.error, 3, i.op⟩ := by
  have hv := validate_of_zero hn h0
  rw [← present_len_toNat (sp := o.source) hm] at hv
  rw [State.called, complete_of_some (e := .invalidDimensions) (by simpa using hv)]
  rfl

/-- A valid Message leaves DONE, and OUTLEN bytes in the result memory that are the command's image of its buffer. -/
theorem called_of_valid (ho : frameOperands i = some o) (hm : m.buf.length ≤ capacity s.params o.source)
    (hn : m.buf.length = m.width.toNat * m.height.toNat * o.arity) (h0 : ¬ (m.width.toNat = 0 ∨ m.height.toNat = 0)) :
    (s.called i o m).status = ⟨.done, 0, i.op⟩ ∧
      (List.range (s.called i o m).outlen.toNat).map ((s.called i o m).byteAt o.result) =
        resultImage i s.params.luma m := by
  have hpar : ((s.present o.source m).issue i).params = s.params := present_params
  have harea : ((s.present o.source m).issue i).area = m.width.toNat * m.height.toNat := by simp [State.area]
  have hlen : ((s.present o.source m).issue i).len.toNat = m.buf.length := present_len_toNat hm
  have hv : validate o.arity ((s.present o.source m).issue i).width.toNat ((s.present o.source m).issue i).height.toNat
      ((s.present o.source m).issue i).len.toNat = none := by
    rw [hlen, validate_eq_none]
    simp only [issue_width, issue_height, present_width, present_height]
    omega
  have hfit := area_le_of_validate ho (by rwa [hlen, hpar]) hv
  have hbuf (j : Nat) (hj : j < ((s.present o.source m).issue i).area * o.arity) :
      ((s.present o.source m).issue i).byteAt o.source j = m.buf.getD j 0 := by
    rw [harea, ← hn] at hj
    exact byteAt_of_cell (by simp [present_cell, hj])
  rw [State.called, complete_of_none hv]
  refine ⟨by simp, ?_⟩
  have hout : (storeOf i ((s.present o.source m).issue i)).succeed.outlen.toNat = m.width.toNat * m.height.toNat := by
    rw [succeed_outlen_toNat (by simpa [State.area] using hfit.2.2)]
    simp [State.area]
  rw [hout]
  refine map_byteAt_range (resultImage_length ho _) fun k hk => ?_
  rw [succeed_cell, storeOf_result_getElem? ho (by simp) (by simp) hbuf (harea ▸ hk), hpar]

/-- A command and a WAIT on a block that is not BUSY: the issue, the reads that return BUSY, the completion, the last read. -/
theorem runLines_command_wait (ho : frameOperands i = some o) (hb : s.status.state ≠ .busy) (hs : s.Between)
    (hl : s.len.toNat ≤ capacity s.params o.source) (n : Nat) :
    runLines [.command i, .wait n] s =
      .next (((s.issue i).complete o.arity (storeOf i)).withHost [] none
        (s.replies ++ List.replicate n (Reply.word (s.issue i).status.word) ++
          [Reply.word ((s.issue i).complete o.arity (storeOf i)).status.word])) := by
  have hfin (rs : List Reply) : finish ((s.issue i).withHost [] none rs) =
      .next (((s.issue i).complete o.arity (storeOf i)).withHost [] none rs) :=
    (finish_busy (s := (s.issue i).withHost [] none rs) rfl ⟨rfl, rfl⟩).trans (step_completion_nil ho hl)
  have hself : (s.issue i).withHost [] none s.replies = s.issue i := withHost_of_between (s := s.issue i) hs
  have hwait := wait_busy (s := s.issue i) rfl (complete_ne_busy _) hfin n s.replies
  rw [hself] at hwait
  simp only [runLines, runLine, lineActions, actAll]
  rw [act_command hb hs, exec_issue ho hb hl, andThen_next, andThen_next, hwait, andThen_next]

/-- The lines of a call on a block that is not BUSY: the last thing read is the STATUS of the state that is left. -/
theorem runProgram_call (ho : frameOperands i = some o) (hb : s.status.state ≠ .busy) (hs : s.Between)
    (hm : m.buf.length ≤ capacity s.params o.source) (n : Nat) :
    ∃ rs, runProgram (callLines i o m n) s = .next ((s.called i o m).withHost [] none rs) ∧
      rs.getLast? = some (Reply.word (s.called i o m).status.word) := by
  have hl : (s.present o.source m).len.toNat ≤ capacity (s.present o.source m).params o.source := by
    rwa [present_len_toNat hm, present_params]
  have hrun := runLines_command_wait ho (s := s.present o.source m) (by simpa using hb) (present_between hs) hl n
  refine ⟨(s.present o.source m).replies ++ List.replicate n (Reply.word ((s.present o.source m).issue i).status.word) ++
    [Reply.word (s.called i o m).status.word], ?_, List.getLast?_concat⟩
  rw [runProgram, callLines, runLines_append, runLines_presentLines hb hs (source_ne_lbpm ho) hm, andThen_next, hrun]
  exact finish_free (s := (s.called i o m).withHost [] none _) called_ne_busy (withHost_between _ _)

/-- A call whose lines run answers by the STATUS that they leave. -/
theorem callCommand_of_run {n : Nat} (ho : frameOperands i = some o) (hm : m.buf.length ≤ capacity s.params o.source)
    (hrun : runProgram (callLines i o m n) s = .next t)
    (hlast : t.replies.getLast? = some (.word t.status.word)) :
    callCommand i n m s =
      if t.status.state.code = RunState.error.code ∧ t.status.err = 2 then (.err .dimensionMismatch, t)
      else if t.status.state.code = RunState.error.code ∧ t.status.err = 3 then (.err .invalidDimensions, t)
      else if t.status.state.code = RunState.done.code then readMessage o.result t else (.noResult, t) := by
  rw [callLines] at hrun
  simp only [callCommand, ho, if_neg (Nat.not_lt.mpr hm), hrun, hlast, replyWord, wordState_word, wordErr_word]

/-- A call whose lines leave what the presented Message leaves: its answer, and the response that the final state holds. -/
theorem exists_callCommand_eq (ho : frameOperands i = some o) {c : State} (hc : c.Inv)
    (hcb : c.status.state ≠ .busy) (hpar : c.params = s.params) (hm : m.buf.length ≤ capacity s.params o.source)
    {n : Nat} {rs : List Reply}
    (hrun : runProgram (callLines i o m n) s = .next ((c.called i o m).withHost [] none rs))
    (hlast : rs.getLast? = some (.word (c.called i o m).status.word)) :
    ∃ rs', callCommand i n m s = (callAnswer i o.arity s.params.luma m, (c.called i o m).withHost [] none rs') ∧
      ∀ r, callAnswer i o.arity s.params.luma m = .ok r → (c.called i o m).response = some r := by
  have hm' : m.buf.length ≤ capacity c.params o.source := by rwa [hpar]
  rw [callCommand_of_run ho hm hrun hlast]
  by_cases hn : m.buf.length = m.width.toNat * m.height.toNat * o.arity
  · by_cases h0 : m.width.toNat = 0 ∨ m.height.toNat = 0
    · have hst := called_status_of_zero (s := c) (i := i) hm' hn h0
      exact ⟨rs, by simp [callAnswer, hn, h0, hst], by simp [callAnswer, hn, h0]⟩
    · obtain ⟨hst, himg⟩ := called_of_valid (s := c) ho hm' hn h0
      have hout : (c.called i o m).outlen.toNat ≤ capacity (c.called i o m).params o.result :=
        ((inv_called ho hcb hm' hc).outlen_bounds (by rw [hst])).2.trans (maxPix_le_capacity _ _)
      obtain ⟨rs', hread⟩ := readMessage_eq (s := (c.called i o m).withHost [] none rs) called_ne_busy
        (withHost_between _ rs) hout
      rw [byteAt_withHost, withHost_outlen, withHost_width, withHost_height, called_width, called_height, himg, hpar] at hread
      refine ⟨rs', by simpa [callAnswer, hn, h0, hst, RunState.code] using hread, fun r hr => ?_⟩
      obtain rfl : ({ width := m.width, height := m.height, buf := resultImage i s.params.luma m } : Message) = r := by
        simpa [callAnswer, hn, h0] using hr
      rw [State.response, hst, if_pos rfl, resultSpace_op ho, himg, hpar, called_width, called_height]
  · have hst := called_status_of_mismatch (s := c) (i := i) hm' hn
    exact ⟨rs, by simp [callAnswer, hn, hst], by simp [callAnswer, hn]⟩

/-- Settles O58: a command in progress completes first; then the Message is presented, and the command completes with the
image of what was presented. A Message that does not fit is turned away. -/
theorem commandOnAMessage : Obligations.CommandOnAMessage := by
  intro i o n m s ho
  refine ⟨fun h hs hm => ?_, fun hbig => ?_⟩
  · obtain ⟨c, hc, hcb, hcs, hpar, -, hfree⟩ := exists_free_runLines_frame h hs
    have hm' : m.buf.length ≤ capacity c.params o.source := by rwa [hpar]
    obtain ⟨rs, hrun, hlast⟩ := runProgram_call ho hcb hcs hm' n
    have hrun' : runProgram (callLines i o m n) s = _ :=
      (congrArg (andThen · finish) (hfree _ _ _ _)).trans hrun
    obtain ⟨rs', hcall, hresp⟩ := exists_callCommand_eq ho hc hcb hpar hm hrun' hlast
    rw [hcall]
    exact ⟨rfl, fun r hr => (response_withHost _ _ _).trans (hresp r hr),
      inv_withHost_none _ _ (inv_called ho hcb hm' hc), withHost_between _ _⟩
  · have hlong : capacity s.params o.source < m.buf.length := by
      refine hbig.elim id fun hp => ?_
      simp only [Message.presentable, decide_eq_false_iff_not, not_lt] at hp
      exact Nat.lt_of_lt_of_le (lt_of_le_capacity (le_refl _)) hp
    simp only [callCommand, ho, if_pos hlong]

end Sys2Proof.Machine
end

section
/-! PROOFS of the statements on the grayscale converter (family `40_grayscale.md`). First what the accumulator, the quotient
and the rounding do, each said once; then the statements on `luma`, on `gray_fn`, and on GRAY. -/

namespace Sys2Proof.Machine

variable {L : Luma} {s : State} {i : Instr} {o : FrameOperands}

/-! ### The accumulator -/

/-- Every product of the accumulator is monotone in its channel. -/
theorem lumaAcc_le_lumaAcc {r r' g g' b b' : Byte} (hr : r.toNat ≤ r'.toNat) (hg : g.toNat ≤ g'.toNat)
    (hb : b.toNat ≤ b'.toNat) : lumaAcc L r g b ≤ lumaAcc L r' g' b' :=
  Nat.add_le_add (Nat.add_le_add (Nat.mul_le_mul_left _ hr) (Nat.mul_le_mul_left _ hg)) (Nat.mul_le_mul_left _ hb)

/-- The weights sum to DIV (R6), so on a gray pixel the accumulator is a multiple of DIV (R114 (b)). -/
theorem lumaAcc_same (L : Luma) (v : Byte) : lumaAcc L v v v = L.div * v.toNat := by
  rw [lumaAcc, ← Nat.add_mul, ← Nat.add_mul, L.sum_eq]

theorem toNat_le_white (c : Byte) : c.toNat ≤ (255 : Byte).toNat := Nat.le_of_lt_succ c.isLt

/-- No pixel exceeds white. -/
theorem lumaAcc_le (L : Luma) (r g b : Byte) : lumaAcc L r g b ≤ L.div * 255 :=
  calc lumaAcc L r g b ≤ lumaAcc L 255 255 255 :=
        lumaAcc_le_lumaAcc (toNat_le_white r) (toNat_le_white g) (toNat_le_white b)
    _ = L.div * 255 := lumaAcc_same L 255

/-! ### The quotient -/

/-- What the rounding adds to the accumulator before the division (R112). -/
def roundingBias (L : Luma) : Nat :=
  match L.rnd with
  | .floor => 0
  | .nearest => L.div / 2

/-- Both roundings as one division. -/
theorem lumaNat_eq_div (L : Luma) (r g b : Byte) : lumaNat L r g b = (lumaAcc L r g b + roundingBias L) / L.div := by
  unfold lumaNat roundingBias
  cases L.rnd <;> rfl

/-- The bias never reaches the next multiple of DIV. -/
theorem roundingBias_lt (L : Luma) : roundingBias L < L.div := by
  have hpos := L.div_pos
  unfold roundingBias
  cases L.rnd
  case floor => exact hpos
  case nearest => exact Nat.div_lt_self hpos (by decide)

theorem lumaNat_le_lumaNat {r r' g g' b b' : Byte} (hr : r.toNat ≤ r'.toNat) (hg : g.toNat ≤ g'.toNat)
    (hb : b.toNat ≤ b'.toNat) : lumaNat L r g b ≤ lumaNat L r' g' b' := by
  rw [lumaNat_eq_div, lumaNat_eq_div]
  exact Nat.div_le_div_right (Nat.add_le_add_right (lumaAcc_le_lumaAcc hr hg hb) _)

theorem lumaNat_same (L : Luma) (v : Byte) : lumaNat L v v v = v.toNat := by
  rw [lumaNat_eq_div, lumaAcc_same, Nat.mul_add_div L.div_pos, Nat.div_eq_of_lt (roundingBias_lt L), Nat.add_zero]

theorem lumaNat_le (L : Luma) (r g b : Byte) : lumaNat L r g b ≤ 255 :=
  calc lumaNat L r g b ≤ lumaNat L 255 255 255 :=
        lumaNat_le_lumaNat (toNat_le_white r) (toNat_le_white g) (toNat_le_white b)
    _ = 255 := lumaNat_same L 255

/-! ### The luminance of a pixel -/

/-- The byte loses nothing of the quotient (R114 (a)). -/
@[simp] theorem luma_toNat (L : Luma) (r g b : Byte) : (luma L r g b).toNat = lumaNat L r g b :=
  Nat.mod_eq_of_lt (Nat.lt_succ_of_le (lumaNat_le L r g b))

theorem luma_same (L : Luma) (v : Byte) : luma L v v v = v :=
  BitVec.eq_of_toNat_eq ((luma_toNat L v v v).trans (lumaNat_same L v))

/-- Settles O22: the byte is the quotient, whose definition is the formula under each rounding. -/
theorem lumaIsTheRoundedWeightedSum : Obligations.LumaIsTheRoundedWeightedSum := by
  intro L r g b
  rw [luma_toNat]
  constructor <;> intro hrnd <;> simp only [lumaNat, hrnd, lumaAcc]

/-- Settles O23: the quotient is monotone, and on a gray pixel it is the channel value, because the rounding adds less than
DIV to a multiple of DIV. -/
theorem lawsOfEveryLuma : Obligations.LawsOfEveryLuma := by
  refine fun L => ⟨lumaNat_le L, luma_same L, fun r r' g g' b b' hr hg hb => ?_, luma_same L 0, luma_same L 255⟩
  rw [luma_toNat, luma_toNat]
  exact lumaNat_le_lumaNat hr hg hb

/-- Settles O24: the formula of FLOOR, at the weights of LUMA_DEFAULT. -/
theorem defaultLumaFormula : Obligations.DefaultLumaFormula :=
  ⟨rfl, fun r g b => (lumaIsTheRoundedWeightedSum lumaDefault r g b).1 rfl⟩

/-- Settles O25: the accumulator of white bounds every other, and that of LUMA_DEFAULT is 2550000. -/
theorem lumaAccumulatorWidth : Obligations.LumaAccumulatorWidth := by
  refine ⟨fun L r g b => Nat.mul_comm L.div 255 ▸ lumaAcc_le L r g b, fun r g b => ?_⟩
  calc lumaAcc lumaDefault r g b ≤ lumaDefault.div * 255 := lumaAcc_le _ r g b
    _ < 2 ^ 22 := by decide

/-! ### The whole buffer -/

/-- Settles O26: the length and the byte that the laws of `grayFn` give, the pixel's luminance written out. -/
theorem grayFnWholeBuffer : Obligations.GrayFnWholeBuffer := fun L w h pix =>
  ⟨grayFn_length L w h pix, fun _ hp => grayFn_getElem? L pix hp⟩

/-- The luminance of a pixel looks only at its bytes 0, 1 and 2, and not at alpha (R111). -/
theorem pixelLuma_congr {pix pix' : Nat → Byte} {p : Nat} (he : ∀ c < 3, pix (4 * p + c) = pix' (4 * p + c)) :
    pixelLuma L pix p = pixelLuma L pix' p := by
  have hr : pix (4 * p) = pix' (4 * p) := he 0 (by decide)
  rw [pixelLuma, pixelLuma, hr, he 1 (by decide), he 2 (by decide)]

/-- Settles O27: the three bytes that a pixel's luminance looks at lie in the frame, and none is an alpha byte. -/
theorem alphaIsIgnored : Obligations.AlphaIsIgnored := by
  intro L w h pix pix' he
  refine List.map_congr_left fun p hp => pixelLuma_congr fun c hc => ?_
  have hlt : p < w * h := List.mem_range.mp hp
  exact he (4 * p + c) (by omega) (by omega)

/-! ### GRAY -/

/-- A command in progress on a frame that passes the check makes its stores and succeeds, and OUTLEN is exact (R151). -/
theorem exec_succeeds (ho : frameOperands i = some o) (hb : s.status.state = .busy) (hop : s.status.op = i.op)
    (hl : s.len.toNat ≤ capacity s.params o.source) (hn : s.len.toNat = s.area * o.arity) (hw : 1 ≤ s.width.toNat)
    (hh : 1 ≤ s.height.toNat) :
    exec i s = .next (storeOf i s).succeed ∧ (storeOf i s).succeed.outlen.toNat = s.area := by
  have hv : validate o.arity s.width.toNat s.height.toNat s.len.toNat = none := validate_eq_none.mpr ⟨hn, hw, hh⟩
  obtain ⟨-, -, hlt⟩ := area_le_of_validate ho hl hv
  have harea : (storeOf i s).area = s.area := by simp [State.area]
  refine ⟨?_, ?_⟩
  · rw [exec_complete ho hb hop hl, complete_of_none hv]
  · rw [succeed_outlen_toNat (harea ▸ hlt), harea]

/-- The stores and the success record of a command leave the descriptor and the host's side alone. -/
theorem succeed_storeOf_frame (i : Instr) (s : State) :
    DescriptorSame s (storeOf i s).succeed ∧ HostSideSame s (storeOf i s).succeed := by
  simp [DescriptorSame, HostSideSame]

/-- Settles O11: GRAY succeeds, and its stores are the luminances of the frame, in GRAY below `W * H` and nowhere else. -/
theorem grayCompletes : Obligations.GrayCompletes := by
  intro s hb hop hl hn hw hh
  obtain ⟨hexec, hout⟩ := exec_succeeds (i := .gray) rfl hb hop hl (hn.trans (Nat.mul_comm _ _)) hw hh
  obtain ⟨hdesc, hhost⟩ := succeed_storeOf_frame .gray s
  refine ⟨_, hexec, by simp [hop], hout, fun p hp => ?_, fun p hp => ?_, cellsSame_of_mem rfl, cellsSame_of_mem rfl,
    hdesc, hhost⟩
  · rw [succeed_cell, storeGray_cell, if_pos ⟨rfl, hp⟩, frameGray_getElem? hp, pixelLuma]
  · rw [succeed_cell, storeOf_cell_of_le hp]

end Sys2Proof.Machine
end

section
/-! PROOFS of the statements on the LBP neighbourhood comparator (family `41_lbp.md`). First the code as the eight
comparisons in their order, and the cells that it looks at; then the statements on the code, on `lbp_fn`, and on LBP. -/

namespace Sys2Proof.Machine

variable {w h x y : Nat} {gray : Nat → Byte} {c c' : Byte} {n n' : Fin 8 → Byte}

/-! ### The code as eight comparisons -/

/-- The eight comparisons of a cell with its neighbours, in their order (R134). -/
def comparisons (c : Byte) (n : Fin 8 → Byte) (i : Fin 8) : Bool :=
  decide (c ≤ n i)

/-- A term is its weight, once or not at all. -/
theorem lbpTerm_toNat (n c weight : Byte) :
    (lbpTerm n c weight).toNat = (decide (c ≤ n)).toNat * weight.toNat := by
  unfold lbpTerm
  split <;> simp [*]

/-- The weights are those of the bits from 7 down to 0, so the sum carries nowhere: the code is the comparisons, read as
binary digits with the top left first (R135). -/
theorem lbpCode_eq_ofFnBE (c : Byte) (n : Fin 8 → Byte) :
    lbpCode c (n 0) (n 1) (n 2) (n 3) (n 4) (n 5) (n 6) (n 7) = BitVec.ofFnBE (comparisons c n) := by
  apply BitVec.eq_of_toNat_eq
  have hlt : Nat.ofBits (comparisons c n ∘ Fin.rev) < 256 := Nat.ofBits_lt_two_pow _
  rw [BitVec.toNat_ofFnBE, ← Nat.mod_eq_of_lt hlt]
  simp [lbpCode, lbpTerm_toNat, Nat.ofBits, comparisons, Fin.foldr_succ]
  omega

/-- Bit `7 - i` of the code is comparison `i` (R134). -/
theorem lbpCode_getLsbD (c : Byte) (n : Fin 8 → Byte) (i : Fin 8) :
    (lbpCode c (n 0) (n 1) (n 2) (n 3) (n 4) (n 5) (n 6) (n 7)).getLsbD (7 - i) = decide (c ≤ n i) := by
  rw [lbpCode_eq_ofFnBE]
  simpa [BitVec.getMsbD_eq_getLsbD, comparisons] using BitVec.getMsbD_ofFnBE (comparisons c n) i

/-- The code depends only on the eight order relations (R142). -/
theorem lbpCode_congr (he : ∀ i, c ≤ n i ↔ c' ≤ n' i) :
    lbpCode c (n 0) (n 1) (n 2) (n 3) (n 4) (n 5) (n 6) (n 7) =
      lbpCode c' (n' 0) (n' 1) (n' 2) (n' 3) (n' 4) (n' 5) (n' 6) (n' 7) := by
  rw [lbpCode_eq_ofFnBE, lbpCode_eq_ofFnBE]
  exact congrArg _ (funext fun i => decide_eq_decide.mpr (he i))

theorem lbpCode_of_forall_le (hle : ∀ i, c ≤ n i) :
    lbpCode c (n 0) (n 1) (n 2) (n 3) (n 4) (n 5) (n 6) (n 7) = 0xFF :=
  lbpCode_congr (c' := 0) (n' := fun _ => 0) fun i => iff_of_true (hle i) (BitVec.le_refl 0)

theorem lbpCode_eq_zero_iff :
    lbpCode c (n 0) (n 1) (n 2) (n 3) (n 4) (n 5) (n 6) (n 7) = 0 ↔ ∀ i, n i < c := by
  constructor
  · intro h0 i
    have hbit := lbpCode_getLsbD c n i
    rw [h0] at hbit
    simpa using hbit.symm
  · intro hlt
    exact lbpCode_congr (c' := 1) (n' := fun _ => 0) fun i => iff_of_false (BitVec.not_le.mpr (hlt i)) (by decide)

theorem white_le_iff (v : Byte) : 255 ≤ v ↔ v = 255 := by bv_omega

/-- Adding without overflow keeps the order. -/
theorem add_le_add_iff_of_lt {a b k : Byte} (ha : a.toNat + k.toNat < 256) (hb : b.toNat + k.toNat < 256) :
    a + k ≤ b + k ↔ a ≤ b := by
  bv_omega

/-! ### The cells that an output cell looks at -/

theorem lbpCell_of_not_interior (gray : Nat → Byte) (hi : ¬ isInterior w h x y) : lbpCell w h gray x y = 0 := if_neg hi

/-- The offsets of the neighbours, clockwise from the top left (R133). -/
def neighbourOffset : Fin 8 → Int × Int :=
  ![(-1, -1), (0, -1), (1, -1), (1, 0), (1, 1), (0, 1), (-1, 1), (-1, 0)]

/-- The byte at an offset from column `x`, row `y`. -/
def byteAtOffset (w : Nat) (gray : Nat → Byte) (x y : Nat) (d : Int × Int) : Byte :=
  gray (((y : Int) + d.2) * (w : Int) + ((x : Int) + d.1)).toNat

/-- The byte at an offset is that of the column and the row that the offset leads to. -/
theorem byteAtOffset_eq {x' y' : Nat} {d : Int × Int} (hx : (x' : Int) = x + d.1) (hy : (y' : Int) = y + d.2) :
    byteAtOffset w gray x y d = gray (y' * w + x') := by
  rw [byteAtOffset, ← hx, ← hy]
  norm_cast

/-- Neighbour `i` of a cell. -/
def neighbour (w : Nat) (gray : Nat → Byte) (x y : Nat) (i : Fin 8) : Byte :=
  byteAtOffset w gray x y (neighbourOffset i)

/-- The byte of an interior cell is the code of its centre and its neighbours, in their order (R133, R137). -/
theorem lbpCell_of_interior (gray : Nat → Byte) (hi : isInterior w h x y) :
    lbpCell w h gray x y = lbpCode (gray (y * w + x))
      (neighbour w gray x y 0) (neighbour w gray x y 1) (neighbour w gray x y 2) (neighbour w gray x y 3)
      (neighbour w gray x y 4) (neighbour w gray x y 5) (neighbour w gray x y 6) (neighbour w gray x y 7) := by
  rw [lbpCell, if_pos hi]
  obtain ⟨hx, -, hy, -⟩ := hi
  congr 1 <;> symm <;> apply byteAtOffset_eq <;> simp [neighbourOffset] <;> omega

/-! ### The statements on the code and on `lbp_fn` -/

/-- Settles O28: the byte is the code of the cell, whose bits are the comparisons with the neighbours. -/
theorem lbpBitsFollowTheNeighbours : Obligations.LbpBitsFollowTheNeighbours := by
  intro w h x y gray hx hw hy hh
  refine ⟨_, lbpFn_getElem?_index gray (by omega) (by omega), fun i dx dy hd => ?_⟩
  replace hd : (List.ofFn neighbourOffset)[i]? = some (dx, dy) := hd
  obtain ⟨hi, hd⟩ := Option.dite_none_right_eq_some.mp (List.getElem?_ofFn.symm.trans hd)
  have hbit := lbpCode_getLsbD (gray (y * w + x)) (neighbour w gray x y) ⟨i, hi⟩
  rwa [← lbpCell_of_interior gray ⟨hx, hw, hy, hh⟩, neighbour, Option.some.inj hd] at hbit

/-- Settles O29: each clause is a fact of the eight comparisons, and the last one of the border. -/
theorem lbpCodeConsequences : Obligations.LbpCodeConsequences := by
  refine ⟨fun n0 n1 n2 n3 n4 n5 n6 n7 => ?_, fun c => ?_, fun c n0 n1 n2 n3 n4 n5 n6 n7 => ?_, fun f i => ?_,
    fun c f k hc hf => ?_, fun c c' f f' he => lbpCode_congr he, fun w h x y gray v _ _ hx hy hv hne => ?_⟩
  · exact lbpCode_of_forall_le (n := ![n0, n1, n2, n3, n4, n5, n6, n7]) fun _ => BitVec.le_def.mpr (Nat.zero_le _)
  · exact lbpCode_of_forall_le (n := fun _ => c) fun _ => BitVec.le_refl c
  · simpa [Fin.forall_fin_succ] using lbpCode_eq_zero_iff (c := c) (n := ![n0, n1, n2, n3, n4, n5, n6, n7])
  · rw [lbpCode_getLsbD, decide_eq_decide.mpr (white_le_iff (f i))]
  · exact lbpCode_congr (n := fun i => f i + k) fun i => add_le_add_iff_of_lt hc (hf i)
  · obtain rfl : lbpCell w h gray x y = v := by simpa [lbpFn_getElem?_index gray hx hy] using hv
    exact by_contra fun hi => hne (lbpCell_of_not_interior gray hi)

/-- Settles O30: a cell on the border is not interior. -/
theorem lbpBorderIsZero : Obligations.LbpBorderIsZero := by
  refine fun w h gray => ⟨lbpFn_length w h gray, fun x hx y hy hborder => ?_⟩
  rw [lbpFn_getElem?_index gray hx hy, lbpCell_of_not_interior gray (by omega)]

/-- Settles O31: an image with a dimension below 3 has no interior cell. -/
theorem lbpDegenerateSizesAreZero : Obligations.LbpDegenerateSizesAreZero := by
  intro w h gray hsmall
  refine List.eq_replicate_iff.mpr ⟨lbpFn_length w h gray, fun b hb => ?_⟩
  obtain ⟨p, -, rfl⟩ := List.mem_map.mp hb
  exact lbpCell_of_not_interior gray (by omega)

/-- Settles O32: the byte is the output of the cell, which looks only at the cells around it. -/
theorem lbpCellsAreLocal : Obligations.LbpCellsAreLocal := by
  intro w h x y gray gray' hx hy he
  rw [lbpFn_getElem?_index gray hx hy, lbpFn_getElem?_index gray' hx hy, lbpCell_congr he]

/-! ### LBP -/

/-- Settles O12: LBP succeeds, and its stores are the image of GRAY, in LBPM below `W * H` and nowhere else. -/
theorem lbpCompletes : Obligations.LbpCompletes := by
  intro s hb hop hl hn hw hh
  obtain ⟨hexec, hout⟩ := exec_succeeds (i := .lbp) rfl hb hop hl (hn.trans (Nat.mul_one _).symm) hw hh
  obtain ⟨hdesc, hhost⟩ := succeed_storeOf_frame .lbp s
  refine ⟨_, hexec, by simp [hop], hout, fun x hx y hy => ?_, fun p hp => ?_, cellsSame_of_mem rfl, cellsSame_of_mem rfl,
    hdesc, hhost⟩
  · rw [succeed_cell, storeLbp_cell, if_pos ⟨rfl, index_lt hx hy⟩, lbpFn_getElem?_index _ hx hy]
  · rw [succeed_cell, storeOf_cell_of_le hp]

end Sys2Proof.Machine
end

section
/-! PROOFS of the statements on the commands (family `42_commands.md`). First the single steps: issue, hold, the engine's
turn and PROC's completion; then the STATUS reads while BUSY, the life of a result, and PROC as GRAY and then LBP. -/

namespace Sys2Proof.Machine

variable {s t u : State} {i : Instr} {o : FrameOperands} {a : HostAction} {sp : Space}

/-! ### Issue, hold and the engine's turn -/

theorem exec_clr_free (hb : s.status.state ≠ .busy) : exec .clr s = .next s.clear := if_neg hb

theorem err_eq_zero (h : s.Inv) (hne : s.status.state ≠ .error) : s.status.err = 0 :=
  not_not.mp fun he => hne (h.err_iff.mp he)

/-- In IDLE the invariant leaves nothing for CLR to clear. -/
theorem clear_of_idle (h : s.Inv) (hi : s.status.state = .idle) : s.clear = s := by
  have hst : s.status = statusCleared := by
    have herr : s.status.err = 0 := err_eq_zero h (by simp [hi])
    have hop : s.status.op = 0 := h.op_iff.mpr hi
    rw [statusCleared, ← hi, ← herr, ← hop]
  have hout : s.outlen = 0 := h.outlen_zero (by simp [hi])
  rw [State.clear, ← hst, ← hout]

/-- Settles O9: outside BUSY CLR is `State.clear`, which changes nothing in IDLE. -/
theorem clrReturnsToIdle : Obligations.ClrReturnsToIdle := by
  refine ⟨fun s hb => exec_clr_free hb, fun s h hi => ?_⟩
  rw [exec_clr_free (by simp [hi]), clear_of_idle h hi]

/-- A command that is not the one in progress is held (R154). -/
theorem exec_hold (hb : s.status.state = .busy) (hop : s.status.op ≠ i.op) :
    exec i s = .next (s.hold (ctrlWrite i)) := by
  by_cases hi : i = .clr
  · subst hi
    exact if_pos hb
  · obtain ⟨o, ho⟩ := exists_frameOperands hi
    rw [exec_frame ho, frameCommand, if_pos ⟨hb, hop⟩]

/-- Settles O10: the CTRL write begins to be held, because nothing is held yet. -/
theorem commandWhileAnotherRunsIsHeld : Obligations.CommandWhileAnotherRunsIsHeld := by
  intro i s hb hop hh
  rw [exec_hold hb hop, State.hold, hh, Option.none_or]
  rfl

/-- Settles O8: the issue is the frame command's effect outside BUSY, a CTRL write is an action that the hold applies to, and a
held one takes effect first. -/
theorem frameCommandsIssue : Obligations.FrameCommandsIssue :=
  ⟨fun _ _ _ ho hb hl => exec_issue ho hb hl, fun _ _ _ hb hh hi => step_busy_hold hb hh hi rfl,
    fun s v hb => (stepRunsTheDecodedCommand s v hb).2⟩

/-- Settles O6: in each of the three places the step is the engine's turn, which is `exec` of the command that OP names. -/
theorem engineTurnRunsTheCommandInProgress : Obligations.EngineTurnRunsTheCommandInProgress := by
  refine fun i s hb hop hi => ⟨fun rest hin => ?_, fun hin => ?_, fun a rest hh hin ha => ?_⟩
  · rw [step_busy_engine hb hin]
    exact engineTurn_eq hop hi
  · rw [step_busy_nil hb hin, engineTurn_eq hop hi]
  · rw [step_busy_held hb hh hin ha, engineTurn_eq hop hi]

/-- While BUSY the invariant leaves OP as the only open field of STATUS. -/
theorem status_of_busy (h : s.Inv) (hb : s.status.state = .busy) : s.status = ⟨.busy, 0, s.status.op⟩ := by
  rw [← hb, ← err_eq_zero h (by simp [hb])]

/-- Settles O17: a STATUS read is performed, an action that the hold applies to begins to be held, and a held action is the next
move outside BUSY. -/
theorem holdWhileBusy : Obligations.HoldWhileBusy := by
  refine ⟨fun s rest h hb hh hin => ?_, fun s a rest hb hh hin hreset hread => ?_, fun s a hb hh => step_free_held hb hh⟩
  · rw [step_busy_status hb hh hin, perform_status, ← status_of_busy h hb]
    rfl
  · have hw : waitsWhileBusy a ≠ false := fun hw => (waitsWhileBusy_eq_false.mp hw).elim hread hreset
    exact step_busy_hold hb hh hin (by simpa using hw)

/-! ### PROC -/

/-- Below `W * H`, PROC stores the luminances in GRAY. -/
theorem storeProc_cell_gray {p : Nat} (hp : p < s.area) :
    (storeOf .proc s).cell .gray p = some (pixelLuma s.params.luma (s.byteAt .pix) p) := by
  rw [storeProc_cell, if_neg (by simp), if_pos ⟨rfl, hp⟩, frameGray_getElem? hp]

/-- The luminances that PROC looks at are the bytes that GRAY holds afterwards (R152). -/
theorem frameGray_getD_eq_byteAt {p : Nat} (hp : p < s.area) :
    s.frameGray.getD p 0 = (storeOf .proc s).byteAt .gray p := by
  rw [byteAt_of_cell (storeProc_cell_gray hp), List.getD_eq_getElem?_getD, frameGray_getElem? hp, Option.getD_some]

/-- PROC stores in LBPM the code of each cell, computed from the new GRAY. -/
theorem storeProc_cell_lbpm {x y : Nat} (hx : x < s.width.toNat) (hy : y < s.height.toNat) :
    (storeOf .proc s).cell .lbpm (y * s.width.toNat + x) =
      some (lbpCell s.width.toNat s.height.toNat ((storeOf .proc s).byteAt .gray) x y) := by
  rw [storeProc_cell, if_pos ⟨rfl, index_lt hx hy⟩, lbpFn_getElem?_index _ hx hy]
  exact congrArg some (lbpCell_congr fun x' y' hx' hy' _ _ _ _ => frameGray_getD_eq_byteAt (index_lt hx' hy'))

/-- Settles O13: PROC succeeds, and its stores are the luminances in GRAY and the image of the new GRAY in LBPM, below `W * H`
and nowhere else. -/
theorem procCompletes : Obligations.ProcCompletes := by
  intro s hb hop hl hn hw hh
  obtain ⟨hexec, hout⟩ := exec_succeeds (i := .proc) rfl hb hop hl (hn.trans (Nat.mul_comm _ _)) hw hh
  obtain ⟨hdesc, hhost⟩ := succeed_storeOf_frame .proc s
  refine ⟨_, hexec, by simp [hop], hout, fun p hp => ?_, fun x hx y hy => ?_, fun p hp => ⟨?_, ?_⟩, cellsSame_of_mem rfl,
    hdesc, hhost⟩
  · rw [succeed_cell, storeProc_cell_gray hp, pixelLuma]
  · rw [succeed_cell, storeProc_cell_lbpm hx hy]
    exact congrArg (fun gray => some (lbpCell _ _ gray x y)) (funext fun p => (succeed_byteAt _ _ p).symm)
  · rw [succeed_cell, storeOf_cell_of_le hp]
  · rw [succeed_cell, storeOf_cell_of_le hp]

/-! ### STATUS reads while BUSY -/

/-- Settles O18: the first step issues the command, and each of the next `n` answers a STATUS read. -/
theorem statusCanReadBusyAnyNumberOfTimes : Obligations.StatusCanReadBusyAnyNumberOfTimes := by
  intro i o s n rest ho hb hh hl hin
  have hself : s = s.withHost (.host (ctrlWrite i) :: (List.replicate n (.host (.regRead 0x04)) ++ rest)) none s.replies := by
    change s.inbox = .host (ctrlWrite i) :: _ at hin
    rw [← hin, ← hh, withHost_self]
  have hissue := step_issue (es := List.replicate n (.host (.regRead 0x04)) ++ rest) (rs := s.replies) ho hb hl
  rw [← hself] at hissue
  have hreads := run_busy_reads (s := s.issue i) (st := ⟨.busy, 0, i.op⟩) rfl rfl n rest s.replies
  exact ⟨_, (run_succ_of_next hissue).trans hreads, rfl, rfl, rfl⟩

/-- A program of a command and a WAIT leaves what the command leaves, and its replies (R89). -/
theorem runProgram_command_wait (ho : frameOperands i = some o) (hb : s.status.state ≠ .busy) (hs : s.Between)
    (hl : s.len.toNat ≤ capacity s.params o.source) (n : Nat) :
    runProgram [.command i, .wait n] s =
      .next (((s.issue i).complete o.arity (storeOf i)).withHost [] none
        (s.replies ++ List.replicate n (Reply.word (s.issue i).status.word) ++
          [Reply.word ((s.issue i).complete o.arity (storeOf i)).status.word])) := by
  rw [runProgram, runLines_command_wait ho hb hs hl, andThen_next]
  exact finish_free (s := ((s.issue i).complete o.arity (storeOf i)).withHost [] none _) (complete_ne_busy _)
    (withHost_between _ _)

/-- Settles O19: whatever the number of BUSY reads, the state is the completed one, and the replies are on the host's side. -/
theorem busyReadsDoNotMatter : Obligations.BusyReadsDoNotMatter := by
  intro i o s n ho hs hb hl
  exact ⟨_, runProgram_command_wait ho hb hs hl 0, by simp, runProgram_command_wait ho hb hs hl n⟩

/-! ### The life of a result -/

@[simp] theorem nextMove_outlen : s.nextMove.2.outlen = s.outlen := by
  obtain ⟨es, hd, hu, -⟩ := nextMove_snd s
  simp [hu]

/-- A host action that is no Reset, no CTRL write and no write to a memory keeps that memory, OUTLEN and STATUS. -/
theorem perform_keeps_result (h : perform a s = .next t) (hreset : a ≠ .reset) (hctrl : ∀ v, a ≠ .regWrite 0x00 v)
    (hmem : ∀ k b, a ≠ .memWrite8 sp k b) : CellsSame sp s t ∧ t.outlen = s.outlen ∧ t.status = s.status := by
  rcases perform_cases h with ⟨v, ha, -⟩ | ⟨r, v, -, -, rfl⟩ | ⟨r, -, rfl⟩ | ⟨sp', k, b, -, -, ha, rfl⟩ |
    ⟨k, b, -, -, rfl⟩ | ⟨sp', k, -, -, rfl⟩ | ⟨ha, -⟩
  · exact absurd ha (hctrl v)
  · exact ⟨writeReg_cell r v sp, writeReg_outlen r v, writeReg_status r v⟩
  · exact ⟨reply_cell s _ sp, rfl, rfl⟩
  · have hsp : sp ≠ sp' := fun hsp => hmem k b (hsp ▸ ha)
    exact ⟨fun j => writeByte_cell_of_ne b (.inl hsp), writeByte_outlen s sp' k b, writeByte_status s sp' k b⟩
  · exact ⟨fun _ => rfl, rfl, rfl⟩
  · exact ⟨reply_cell s _ sp, rfl, rfl⟩
  · exact absurd ha hreset

/-- Settles O50: in DONE the engine has no turn, and the move that the host makes is none of the three that end a result. -/
theorem resultLivesOn : Obligations.ResultLivesOn := by
  intro s t hd hs hreset hctrl hmem
  have hmove : CellsSame (resultSpace s.status.op) s s.nextMove.2 := cellsSame_of_mem (nextMove_mem _)
  rcases step_cases hs with ⟨-, hb, -⟩ | ⟨a, hm, -, hp⟩ | ⟨-, rfl⟩
  · simp [hd] at hb
  · simp only [hm, ne_eq, Move.host.injEq] at hreset hctrl hmem
    obtain ⟨hcells, hout, hst⟩ := perform_keeps_result hp hreset hctrl hmem
    exact ⟨fun k => (hcells k).trans (hmove k), hout.trans nextMove_outlen, hst.trans nextMove_status⟩
  · exact ⟨hmove, nextMove_outlen, nextMove_status⟩

/-! ### Programs that issue a command and go on -/

/-- A program of one frame command on a block that is not BUSY is its issue and its completion step. -/
theorem runProgram_frame_command (ho : frameOperands i = some o) (hb : s.status.state ≠ .busy) (hs : s.Between)
    (hl : s.len.toNat ≤ capacity s.params o.source) : runProgram [.command i] s = exec i (s.issue i) := by
  rw [exec_complete (s := s.issue i) ho rfl rfl hl]
  exact (runProgram_command_free hb hs).mpr (.inr ⟨o, ho, hl, rfl⟩)

/-- A register write behind a command that has just been issued is made on the state that the command leaves (R154). -/
theorem act_regWrite_issue (ho : frameOperands i = some o) (h : s.Inv) (hs : s.Between)
    (hl : s.len.toNat ≤ capacity s.params o.source) (hc : exec i (s.issue i) = .next t) {r : Reg} (hr : r ≠ .ctrl)
    (v : Word) :
    act (.regWrite (regOffset r) v) (s.issue i) = .next (t.writeReg r v) := by
  obtain ⟨c, -, -, -, -, -, -, hfin, -, hact⟩ := exists_completed (s := s.issue i) (inv_issue ho hl h) rfl hs
  rw [finish_issue ho hs hl, ← exec_complete (s := s.issue i) ho rfl rfl hl, hc] at hfin
  cases hfin
  rw [hact _ rfl, perform_regWrite hr]

/-- A program goes on behind a command and a register write with the state that the two leave. -/
theorem runProgram_command_wr (ho : frameOperands i = some o) (h : s.Inv) (hb : s.status.state ≠ .busy) (hs : s.Between)
    (hl : s.len.toNat ≤ capacity s.params o.source) (hc : exec i (s.issue i) = .next t) {r : Reg} (hr : r ≠ .ctrl)
    (v : Word) (ls : List Line) : runProgram (.command i :: .wr r v :: ls) s = runProgram ls (t.writeReg r v) := by
  simp only [runProgram, runLines, runLine, lineActions, actAll, act_command hb hs, exec_issue ho hb hl,
    act_regWrite_issue ho h hs hl hc hr, andThen_next]

/-! ### PROC is GRAY and then LBP -/

/-- `t` is what PROC leaves from `s`, but for LEN and STATUS: the luminances in GRAY, the image of that GRAY in LBPM, and the
rest as before (R152). -/
structure ProcImage (s t : State) : Prop where
  outlen : t.outlen.toNat = s.area
  gray : ∀ p < s.area, t.cell .gray p = some (pixelLuma s.params.luma (s.byteAt .pix) p)
  lbpm : ∀ x < s.width.toNat, ∀ y < s.height.toNat, t.cell .lbpm (y * s.width.toNat + x) =
    some (lbpCell s.width.toNat s.height.toNat (t.byteAt .gray) x y)
  above : ∀ p, s.area ≤ p → t.cell .gray p = s.cell .gray p ∧ t.cell .lbpm p = s.cell .lbpm p
  pix : CellsSame .pix s t
  width : t.width = s.width
  height : t.height = s.height
  host : HostSideSame s t

theorem HostSideSame.trans (h : HostSideSame s t) (h' : HostSideSame t u) : HostSideSame s u := by
  obtain ⟨hp, hi, hh, hr, hn⟩ := h
  obtain ⟨hp', hi', hh', hr', hn'⟩ := h'
  exact ⟨hp'.trans hp, hi'.trans hi, hh'.trans hh, hr'.trans hr, hn'.trans hn⟩

theorem HostSideSame.symm (h : HostSideSame s t) : HostSideSame t s := by
  obtain ⟨hp, hi, hh, hr, hn⟩ := h
  exact ⟨hp.symm, hi.symm, hh.symm, hr.symm, hn.symm⟩

theorem HostSideSame.between (h : HostSideSame s t) (hs : s.Between) : t.Between := by
  obtain ⟨-, hi, hh, -, -⟩ := h
  exact ⟨hi.trans hs.1, hh.trans hs.2⟩

theorem HostSideSame.params (h : HostSideSame s t) : t.params = s.params := by
  obtain ⟨hp, -⟩ := h
  exact hp

/-- The bytes of unwritten cells depend on the count of Resets too. -/
theorem byteAt_eq_of_same (h : CellsSame sp s t) (hhost : HostSideSame s t) : t.byteAt sp = s.byteAt sp := by
  obtain ⟨-, -, -, -, hresets⟩ := hhost
  exact funext fun k => byteAt_congr (h k) hresets

/-- PROC's image is one image: it names the byte of every cell. -/
theorem ProcImage.cellsSame {b : State} (ht : ProcImage s t) (hb : ProcImage s b) :
    CellsSame .pix t b ∧ CellsSame .gray t b ∧ CellsSame .lbpm t b := by
  have hgray : CellsSame .gray t b := fun p => by
    by_cases hp : p < s.area
    · rw [ht.gray p hp, hb.gray p hp]
    · rw [(ht.above p (Nat.not_lt.mp hp)).1, (hb.above p (Nat.not_lt.mp hp)).1]
  refine ⟨fun p => (hb.pix p).trans (ht.pix p).symm, hgray, fun p => ?_⟩
  by_cases hp : p < s.area
  · have hx : p % s.width.toNat < s.width.toNat := Nat.mod_lt _ (Nat.pos_of_lt_mul_right hp)
    have hy : p / s.width.toNat < s.height.toNat := Nat.div_lt_of_lt_mul hp
    have htp := ht.lbpm _ hx _ hy
    have hbp := hb.lbpm _ hx _ hy
    rw [byteAt_eq_of_same hgray (ht.host.symm.trans hb.host), ← htp, Nat.div_add_mod'] at hbp
    exact hbp
  · rw [(ht.above p (Nat.not_lt.mp hp)).2, (hb.above p (Nat.not_lt.mp hp)).2]

/-- The program of one PROC leaves PROC's image. -/
theorem exists_runProgram_proc (hb : s.status.state ≠ .busy) (hs : s.Between) (hl : s.len.toNat ≤ 4 * s.params.maxPix)
    (hn : s.len.toNat = 4 * s.area) (hw : 1 ≤ s.width.toNat) (hh : 1 ≤ s.height.toNat) :
    ∃ b, runProgram [.command .proc] s = .next b ∧ ProcImage s b ∧ b.status = ⟨.done, 0, 3⟩ ∧ b.len = s.len := by
  obtain ⟨b, hexec, hst, hout, hgray, hlbpm, habove, hpix, ⟨hbw, hbh, hbn⟩, hhost⟩ :=
    procCompletes (s.issue .proc) rfl rfl hl hn hw hh
  exact ⟨b, (runProgram_frame_command (i := .proc) rfl hb hs hl).trans hexec,
    ⟨hout, hgray, hlbpm, habove, hpix, hbw, hbh, hhost⟩, hst, hbn⟩

/-- `u` is what GRAY leaves from `s`, but for LEN, OUTLEN and STATUS: the luminances in GRAY, and the rest as before (R117). -/
structure GrayImage (s u : State) : Prop where
  gray : ∀ p < s.area, u.cell .gray p = some (pixelLuma s.params.luma (s.byteAt .pix) p)
  above : ∀ p, s.area ≤ p → u.cell .gray p = s.cell .gray p
  lbpm : CellsSame .lbpm s u
  pix : CellsSame .pix s u
  width : u.width = s.width
  height : u.height = s.height
  host : HostSideSame s u

/-- GRAY leaves its image, and a LEN write and the issue of LBP behind it keep that. -/
theorem exists_grayImage_of_exec (hl : s.len.toNat ≤ 4 * s.params.maxPix) (hn : s.len.toNat = 4 * s.area)
    (hw : 1 ≤ s.width.toNat) (hh : 1 ≤ s.height.toNat) :
    ∃ g, exec .gray (s.issue .gray) = .next g ∧ g.status.state ≠ .busy ∧
      ∀ v, GrayImage s ((g.writeReg .len v).issue .lbp) := by
  obtain ⟨g, hexec, hst, -, hgray, habove, hpix, hlbpm, ⟨hgw, hgh, -⟩, hhost⟩ :=
    grayCompletes (s.issue .gray) rfl rfl hl hn hw hh
  exact ⟨g, hexec, by simp [hst], fun v => ⟨hgray, habove, hlbpm, hpix, hgw, hgh, hhost⟩⟩

/-- LBP on GRAY's image leaves PROC's image: it keeps the luminances that it reads (R140). -/
theorem exists_procImage_of_exec_lbp (hu : GrayImage s u) (hb : u.status.state = .busy) (hop : u.status.op = 2)
    (hn : u.len.toNat = s.area) (hl : s.area ≤ s.params.maxPix) (hw : 1 ≤ s.width.toNat) (hh : 1 ≤ s.height.toNat) :
    ∃ a, exec .lbp u = .next a ∧ ProcImage s a ∧ a.status = ⟨.done, 0, 2⟩ ∧ a.len = u.len := by
  have harea : u.area = s.area := by rw [State.area, hu.width, hu.height, State.area]
  have hpar : u.params = s.params := hu.host.params
  obtain ⟨a, hexec, hst, hout, hlbpm, habove, hpix, hgray, ⟨haw, hah, han⟩, hhost⟩ :=
    lbpCompletes u hb hop (by rwa [hn, hpar]) (hn.trans harea.symm) (by rwa [hu.width]) (by rwa [hu.height])
  have hbytes : a.byteAt .gray = u.byteAt .gray := byteAt_eq_of_same hgray hhost
  rw [harea] at hout habove
  rw [hu.width, hu.height, ← hbytes] at hlbpm
  exact ⟨a, hexec,
    { outlen := hout
      gray := fun p hp => (hgray p).trans (hu.gray p hp)
      lbpm := hlbpm
      above := fun p hp => ⟨(hgray p).trans (hu.above p hp), (habove p hp).trans (hu.lbpm p)⟩
      pix := fun p => (hpix p).trans (hu.pix p)
      width := haw.trans hu.width
      height := hah.trans hu.height
      host := hu.host.trans hhost }, hst, han⟩

/-- `GRAY ; WR LEN, W*H ; LBP` leaves PROC's image too. -/
theorem exists_runProgram_gray_lbp (h : s.Inv) (hb : s.status.state ≠ .busy) (hs : s.Between)
    (hl : s.len.toNat ≤ 4 * s.params.maxPix) (hn : s.len.toNat = 4 * s.area) (hw : 1 ≤ s.width.toNat)
    (hh : 1 ≤ s.height.toNat) :
    ∃ a, runProgram [.command .gray, .wr .len (BitVec.ofNat 32 s.area), .command .lbp] s = .next a ∧ ProcImage s a ∧
      a.status = ⟨.done, 0, 2⟩ ∧ a.len.toNat = s.area := by
  have hlen : (BitVec.ofNat 32 s.area).toNat = s.area := Nat.mod_eq_of_lt (by have := s.len.isLt; omega)
  have hfit : s.area ≤ s.params.maxPix := by omega
  obtain ⟨g, hgexec, hgb, hgray⟩ := exists_grayImage_of_exec hl hn hw hh
  have himage := hgray (BitVec.ofNat 32 s.area)
  obtain ⟨a, haexec, ha, hst, halen⟩ := exists_procImage_of_exec_lbp himage rfl rfl hlen hfit hw hh
  have hgl : (g.writeReg .len (BitVec.ofNat 32 s.area)).len.toNat ≤ capacity g.params .gray :=
    (hlen.le.trans hfit).trans_eq (congrArg Params.maxPix himage.host.params.symm)
  refine ⟨a, ?_, ha, hst, (congrArg BitVec.toNat halen).trans hlen⟩
  have hlbp := runProgram_frame_command (s := g.writeReg .len (BitVec.ofNat 32 s.area)) (i := .lbp) rfl hgb
    (himage.host.between hs) hgl
  rw [runProgram_command_wr (i := .gray) rfl h hb hs hl hgexec (r := .len) nofun, hlbp, haexec]

/-! ### A frame that fails the check -/

/-- A command on a frame that fails the check ends in ERROR with the code of the check (R196). -/
theorem runProgram_frame_command_fails (ho : frameOperands i = some o) (hb : s.status.state ≠ .busy) (hs : s.Between)
    (hl : s.len.toNat ≤ capacity s.params o.source) {e : ErrorKind}
    (hv : validate o.arity s.width.toNat s.height.toNat s.len.toNat = some e) :
    runProgram [.command i] s = .next ((s.issue i).raise e) := by
  rw [runProgram_frame_command ho hb hs hl, exec_complete (s := s.issue i) ho rfl rfl hl,
    complete_of_some (s := s.issue i) hv]

/-- Settles O53: both programs leave PROC's image, and on a frame that fails the check GRAY and PROC meet the same check. -/
theorem procIsGrayThenLbp : Obligations.ProcIsGrayThenLbp := by
  refine fun s h hs hb hl => ⟨fun hn hw hh => ?_, fun hbad => ?_⟩
  · obtain ⟨a, harun, ha, hast, halen⟩ := exists_runProgram_gray_lbp h hb hs hl hn hw hh
    obtain ⟨b, hbrun, hp, hbst, hblen⟩ := exists_runProgram_proc hb hs hl hn hw hh
    obtain ⟨hpix, hgray, hlbpm⟩ := ha.cellsSame hp
    have hout : a.outlen = b.outlen := BitVec.eq_of_toNat_eq (ha.outlen.trans hp.outlen.symm)
    exact ⟨a, b, harun, hbrun, hpix, hgray, hlbpm, hast, hbst, hout, halen, hblen, ha.width.trans hp.width.symm,
      ha.height.trans hp.height.symm, ha.host.symm.trans hp.host⟩
  · have hv : validate 4 s.width.toNat s.height.toNat s.len.toNat ≠ none := fun hv => by
      obtain ⟨hn, hw, hh⟩ := validate_eq_none.mp hv
      rw [Nat.mul_comm] at hn
      exact hbad.elim (· hn) (by omega)
    obtain ⟨e, hv⟩ := Option.ne_none_iff_exists'.mp hv
    exact ⟨_, _, runProgram_frame_command_fails (i := .gray) rfl hb hs hl hv,
      runProgram_frame_command_fails (i := .proc) rfl hb hs hl hv, rfl, rfl, rfl⟩

end Sys2Proof.Machine
end

section
/-! PROOFS of the statements on the host's codec and driver (family `43_host_codec.md`). First RefCodec: the words of its
header, and a string of bytes as a header and a payload. Then `process` as a call of PROC. -/

namespace Sys2Proof.Machine

variable {c : Codec} {bytes : List Byte} {m : Message}

/-! ### The words of a header -/

theorem fromLe32_lt (b0 b1 b2 b3 : Byte) : fromLe32 b0 b1 b2 b3 < 2 ^ 32 := by
  have h0 := b0.isLt
  have h1 := b1.isLt
  have h2 := b2.isLt
  have h3 := b3.isLt
  unfold fromLe32
  omega

/-- Four bytes are the four bytes of the number that they stand for (R174). -/
theorem le32_ofNat_fromLe32 (b0 b1 b2 b3 : Byte) : le32 (BitVec.ofNat 32 (fromLe32 b0 b1 b2 b3)) = [b0, b1, b2, b3] := by
  have h0 := b0.isLt
  have h1 := b1.isLt
  have h2 := b2.isLt
  have h3 := b3.isLt
  simp only [le32, List.cons.injEq, and_true, ← BitVec.toNat_inj, BitVec.extractLsb'_toNat, BitVec.toNat_ofNat,
    Nat.shiftRight_eq_div_pow, Nat.mod_eq_of_lt (fromLe32_lt b0 b1 b2 b3)]
  unfold fromLe32
  omega

/-! ### RefCodec -/

/-- A string of at least 12 bytes is a header and a payload. -/
theorem exists_header_of_le_length : ∀ {bytes : List Byte}, 12 ≤ bytes.length →
    ∃ w0 w1 w2 w3 h0 h1 h2 h3 n0 n1 n2 n3 buf,
      bytes = w0 :: w1 :: w2 :: w3 :: h0 :: h1 :: h2 :: h3 :: n0 :: n1 :: n2 :: n3 :: buf
  | _ :: _ :: _ :: _ :: _ :: _ :: _ :: _ :: _ :: _ :: _ :: _ :: _, _ => ⟨_, _, _, _, _, _, _, _, _, _, _, _, _, rfl⟩

theorem refDecode_of_length_lt (h : bytes.length < 12) : refDecode bytes = none := by
  unfold refDecode
  split
  · simp only [List.length_cons] at h
    omega
  · rfl

/-- The decoder fails on a truncated header and on a payload that is not of the length in the header, and on nothing else
(R174). -/
theorem refDecode_eq_none_iff :
    refDecode bytes = none ↔
      bytes.length < 12 ∨
        bytes.length ≠ 12 + fromLe32 (bytes.getD 8 0) (bytes.getD 9 0) (bytes.getD 10 0) (bytes.getD 11 0) := by
  rcases Nat.lt_or_ge bytes.length 12 with hlt | hge
  · simp [refDecode_of_length_lt hlt, hlt]
  · obtain ⟨w0, w1, w2, w3, h0, h1, h2, h3, n0, n1, n2, n3, buf, rfl⟩ := exists_header_of_le_length hge
    simp [refDecode, Nat.add_comm 12]

/-- RefCodec accepts the encodings of the Messages that it carries, and nothing else (R174). -/
theorem refDecode_eq_some_iff :
    refDecode bytes = some m ↔ refEncode m = bytes ∧ m.buf.length < 2 ^ 32 := by
  refine ⟨fun hd => ?_, fun ⟨he, hlen⟩ => he ▸ refDecode_refEncode m hlen⟩
  have hge : 12 ≤ bytes.length := Nat.not_lt.mp fun hlt => by simp [refDecode_of_length_lt hlt] at hd
  obtain ⟨w0, w1, w2, w3, h0, h1, h2, h3, n0, n1, n2, n3, buf, rfl⟩ := exists_header_of_le_length hge
  obtain ⟨hn, hm⟩ := Option.ite_none_right_eq_some.mp hd
  obtain rfl := Option.some.inj hm
  have hlen : buf.length < 2 ^ 32 := hn ▸ fromLe32_lt n0 n1 n2 n3
  refine ⟨?_, hlen⟩
  rw [refEncode, if_pos hlen, hn]
  simp only [le32_ofNat_fromLe32, List.cons_append, List.nil_append]

/-- Settles O54: the decoder looks at the two lengths, accepts encodings only, and undoes the encoder. -/
theorem refCodecAcceptsExactlyEncodings : Obligations.RefCodecAcceptsExactlyEncodings := by
  refine ⟨fun _ => refDecode_eq_none_iff, fun _ _ => refDecode_eq_some_iff.mp, fun m m' hm hm' he => ?_⟩
  have hd : refDecode (refEncode m) = some m' := he ▸ refDecode_refEncode m' hm'
  exact Option.some.inj ((refDecode_refEncode m hm).symm.trans hd)

/-! ### The driver -/

/-- What `process` answers for the answer of its call of PROC (R176). -/
def CallResult.encoded (c : Codec) : CallResult → ProcessResult
  | .ok r => .ok (c.encode r)
  | .err e => .err e
  | .noResult => .noResult

theorem process_of_decode_none (n : Nat) (s : State) (hd : c.decode bytes = none) :
    process c n bytes s = (.err .schemaDecode, s) := by
  rw [process, hd]

/-- On bytes that decode, `process` is the call of PROC on the Message, with the answer encoded. -/
theorem process_of_decode_some (n : Nat) (s : State) (hd : c.decode bytes = some m) :
    process c n bytes s = ((callCommand .proc n m s).1.encoded c, (callCommand .proc n m s).2) := by
  simp only [process, hd]
  obtain ⟨answer, t⟩ := callCommand .proc n m s
  cases answer <;> rfl

/-- Settles O55: the call of PROC answers the errors in their order, else the image that is encoded. -/
theorem processEqualsThePipeline : Obligations.ProcessEqualsThePipeline := by
  refine fun c n bytes s h hs => ⟨process_of_decode_none n s, fun m hd hm => ?_⟩
  obtain ⟨hans, -, hinv, hbetween⟩ := (commandOnAMessage .proc _ n m s rfl).1 h hs hm
  rw [process_of_decode_some n s hd]
  refine ⟨?_, hinv, hbetween⟩
  simp only [hans, apply_ite (CallResult.encoded c)]
  rfl

end Sys2Proof.Machine
end

section
/-! PROOFS of the statements on what goes wrong (family `60_exceptions.md`). First the frame check and the error entry; then
the steps that answer no next state, which are host actions only. -/

namespace Sys2Proof.Machine

variable {s : State} {i : Instr} {o : FrameOperands}

/-! ### The frame check and the error entry -/

/-- A command in progress on a frame that fails the check enters ERROR with the code of the check (R196). -/
theorem exec_fails (ho : frameOperands i = some o) (hb : s.status.state = .busy) (hop : s.status.op = i.op)
    (hl : s.len.toNat ≤ capacity s.params o.source) {e : ErrorKind}
    (hv : validate o.arity s.width.toNat s.height.toNat s.len.toNat = some e) : exec i s = .next (s.raise e) := by
  rw [exec_complete ho hb hop hl, complete_of_some hv]

/-- Settles O14: a LEN that is not the frame's fails the first test of the check, and a frame of no pixels the second. -/
theorem failedCheckEntersError : Obligations.FailedCheckEntersError :=
  fun _ _ _ ho hb hop hl => ⟨fun hn => exec_fails ho hb hop hl (validate_of_ne hn),
    fun hn h0 => exec_fails ho hb hop hl (validate_of_zero hn h0)⟩

/-- Settles O15: a frame with a dimension 0 needs no bytes, and no 32-bit LEN is a need of 2^32 or more. -/
theorem frameCheckCoversAllCases : Obligations.FrameCheckCoversAllCases := by
  intro arity w h n _
  have hneed (h0 : w.toNat = 0 ∨ h.toNat = 0) : w.toNat * h.toNat * arity = 0 := by
    rw [Nat.mul_eq_zero.mpr h0, Nat.zero_mul]
  refine ⟨fun hw hh hn => validate_eq_none.mpr ⟨hn, hw, hh⟩, fun _ _ hn => validate_of_ne hn,
    fun h0 hn => validate_of_zero (hn.trans (hneed h0).symm) h0, fun h0 hn => validate_of_ne ?_,
    fun hbig => validate_of_ne ?_⟩
  · rwa [hneed h0]
  · exact Nat.ne_of_lt (n.isLt.trans_le hbig)

/-! ### Where a step can stop -/

@[simp] theorem nextMove_len : s.nextMove.2.len = s.len := by
  obtain ⟨es, hd, hu, -⟩ := nextMove_snd s
  simp [hu]

@[simp] theorem nextMove_params : s.nextMove.2.params = s.params := by
  obtain ⟨es, hd, hu, -⟩ := nextMove_snd s
  simp [hu]

/-- While a command is in progress the engine's turn completes it (R151, R190). -/
theorem exists_engineTurn_next (h : s.Inv) (hb : s.status.state = .busy) : ∃ t, engineTurn s = .next t := by
  obtain ⟨i, o, ho, hop, hl⟩ := exists_command h hb
  exact ⟨_, (engineTurn_eq hop (frameOperands_ne_clr ho)).trans (exec_complete ho hb hop hl)⟩

/-- From a state of the invariant a step answers a next state unless it is a host action that takes effect. -/
theorem step_next_or_perform (h : s.Inv) :
    (∃ t, step s = .next t) ∨ ∃ a, s.nextMove.1 = .host a ∧ step s = perform a s.nextMove.2 := by
  cases hm : s.nextMove.1 <;> rw [step, hm]
  case engine => exact .inl (exists_engineTurn_next (inv_nextMove h) (by simpa using busy_of_nextMove_engine hm))
  case host a => exact .inr ⟨a, rfl, rfl⟩
  case quiet => exact .inl ⟨_, rfl⟩

/-- Settles O46: a host action is the only move that can answer no next state, and none faults. -/
theorem noStepFaults : Obligations.NoStepFaults := by
  intro s f h hf
  rcases step_next_or_perform h with ⟨t, ht⟩ | ⟨a, -, ha⟩
  · cases ht.symm.trans hf
  · exact perform_ne_fault f (ha.symm.trans hf)

/-- Settles O47: a refused step is a refused host action, whose LEN and capacities are those of the state before the move. -/
theorem onlyUndefinedActionsAreRefused : Obligations.OnlyUndefinedActionsAreRefused := by
  intro s r h hr
  rcases step_next_or_perform h with ⟨t, ht⟩ | ⟨a, hm, ha⟩
  · cases ht.symm.trans hr
  · exact ⟨a, hm, by simpa only [nextMove_len, nextMove_params] using perform_refused (ha.symm.trans hr)⟩

end Sys2Proof.Machine
end

section
/-! PROOFS of the statements on Reset and on the end of BUSY (family `70_reset_and_hazards.md`). First Reset and the command
behind it; then what one step makes of a BUSY block, from which the bound on a run follows. -/

namespace Sys2Proof.Machine

variable {s : State}

/-! ### Reset -/

/-- Settles O40: Reset is `State.resetBlock`, which keeps a held action or drops it, and it is the next move of a block that is
BUSY or holds nothing. -/
theorem resetIsNeverHeld : Obligations.ResetIsNeverHeld := by
  refine ⟨fun s => ?_, fun s rest hi h => step_reset hi h⟩
  have hheld : s.resetBlock.held = none ∨ s.resetBlock.held = s.held := by
    rw [resetBlock_held]
    split
    · exact .inr rfl
    · exact .inl rfl
  exact ⟨s.resetBlock, rfl, rfl, rfl, rfl, rfl, rfl, resetBlock_cell s, hheld, rfl, rfl, rfl⟩

/-- Settles O42: at reset LEN is the 0 bytes that a frame of dimensions 0 needs, so the check comes to its second test. -/
theorem commandStraightAfterReset : Obligations.CommandStraightAfterReset := by
  intro i o ho
  have hv : validate o.arity State.reset.width.toNat State.reset.height.toNat State.reset.len.toNat =
      some .invalidDimensions := validate_of_zero (Nat.zero_mul _).symm (.inl rfl)
  exact ⟨_, runProgram_frame_command_fails ho (by decide) ⟨rfl, rfl⟩ (Nat.zero_le _) hv, rfl, rfl⟩

/-! ### A BUSY block completes -/

/-- The engine's turn on a command in progress ends in DONE or ERROR (R151). -/
theorem exists_engineTurn_done_or_error (h : s.Inv) (hb : s.status.state = .busy) :
    ∃ t, engineTurn s = .next t ∧ (t.status.state = .done ∨ t.status.state = .error) ∧
      t.status.state ≠ .busy := by
  obtain ⟨t, ht⟩ := exists_engineTurn_next h hb
  obtain ⟨i, o, -, -, -, rfl⟩ := engineTurn_cases hb ht
  exact ⟨_, ht, complete_state _, complete_ne_busy _⟩

/-- A step of a BUSY block leaves BUSY, for DONE or ERROR unless it makes a Reset that was to come, or takes one move off the
inbox and leaves the command in progress (R151, R154, R220). -/
theorem step_busy_cases (h : s.Inv) (hb : s.status.state = .busy) :
    ∃ t, step s = .next t ∧
      ((t.status.state ≠ .busy ∧ (.host .reset ∉ s.inbox → t.status.state = .done ∨ t.status.state = .error)) ∨
        (t.status.state = .busy ∧ ∃ e, s.inbox = e :: t.inbox)) := by
  have hu : s.nextMove.2.Inv := inv_nextMove h
  rcases nextMove_cases s with ⟨es, hm, -⟩ | ⟨es, hm, hi⟩ | ⟨a, es, hm, hi, -, ha⟩ | ⟨a, -, hn, -⟩ |
    ⟨a, es, hm, -, -, hi, -⟩ | ⟨es, -, hn, -⟩
  · rw [hm] at hu
    obtain ⟨t, ht, hst, hne⟩ := exists_engineTurn_done_or_error hu hb
    exact ⟨t, (step_of_nextMove hm).trans ht, .inl ⟨hne, fun _ => hst⟩⟩
  · exact ⟨_, step_of_nextMove hm, .inl ⟨by simp, fun hr => absurd (by simp [hi]) hr⟩⟩
  · obtain rfl := ha hb
    exact ⟨_, step_of_nextMove hm, .inr ⟨hb, _, hi⟩⟩
  · exact absurd hb hn
  · exact ⟨_, step_of_nextMove hm, .inr ⟨hb, _, hi⟩⟩
  · exact absurd hb hn

/-- Settles O20, by induction on the moves in the inbox: a step that leaves the block BUSY takes one of them off, so with none
left the block leaves BUSY. -/
theorem busyBlockCompletes : Obligations.BusyBlockCompletes := by
  intro s h hb
  induction hn : s.inbox.length using Nat.strong_induction_on generalizing s with
  | h n ih =>
    obtain ⟨t, ht, ⟨hne, hend⟩ | ⟨hbt, e, hi⟩⟩ := step_busy_cases h hb
    · exact ⟨1, by omega, t, run_succ_of_next ht, hne, hend⟩
    · have hlen : t.inbox.length + 1 = n := by rw [← hn, hi, List.length_cons]
      obtain ⟨k, hk, u, hrun, hne, hend⟩ := ih t.inbox.length (by omega) t (stepKeepsTheInvariant s t h ht) hbt rfl
      refine ⟨k + 1, by omega, u, (run_succ_of_next ht).trans hrun, hne, fun hr => hend fun hmem => hr ?_⟩
      rw [hi]
      exact .tail e hmem

end Sys2Proof.Machine
end
